-- ==== Sys2Proof/Word.lean ====
section
/-! DEFINITION. The words of the machine and the vocabulary every layer shares: the widths of
00_scope.md R7 and R8, the two units (R1) and the usage errors (60_exceptions.md R171). -/

namespace Sys2Proof

/-- A command word or a readback word (30_encoding.md R70, R77). -/
abbrev Word := BitVec 32

/-- One source byte, output octet or pending byte. -/
abbrev Octet := BitVec 8

/-- One decoder input character: a 16-bit code unit, `CU_W` = 16 (00_scope.md R7). -/
abbrev CodeUnit := BitVec 16

/-- A position in the alphabet, 0 to 63 (20_memory.md R51). -/
abbrev SymbolIndex := BitVec 6

/-- The two datapaths, selected by the `U` bit of a command word (00_scope.md R1, 30_encoding.md R71). -/
inductive CodecUnit where
  /-- Unit 0: mapper, pending-byte buffer, line-break insert logic. -/
  | encoder
  /-- Unit 1: symbol lookup, bit accumulator, phase counter. -/
  | decoder
  deriving DecidableEq, Repr

/-- The usage errors a command can raise (60_exceptions.md R171). -/
inductive UsageError where
  /-- `(U, OP)` is reserved. -/
  | rsvdOp
  /-- `(U, OP)` is assigned but a must-be-0 bit is 1. -/
  | rsvdField
  /-- `ENC.BYTE` or `ENC.FLUSH` while `FLUSHED` = 1. -/
  | afterFlush
  deriving DecidableEq, Repr

end Sys2Proof
end

