-- ==== Sys2Proof/Machine/Operands.lean ====
section
/-! DEFINITION. The fields of a command word (30_encoding.md R70) and the assembly of the three operands (R83). -/

namespace Sys2Proof.Machine

/-- `U` = w[31]. -/
def fieldU (w : Word) : BitVec 1 := w.extractLsb' 31 1

/-- `OP` = w[30:28]. -/
def fieldOp (w : Word) : BitVec 3 := w.extractLsb' 28 3

/-- `RSV` = w[27:16]. -/
def fieldRsv (w : Word) : BitVec 12 := w.extractLsb' 16 12

/-- `OPND` = w[15:0]. -/
def fieldOpnd (w : Word) : BitVec 16 := w.extractLsb' 0 16

/-- The unit the `U` bit selects (30_encoding.md R70, R71). -/
def unitOf (w : Word) : CodecUnit := if fieldU w = 0#1 then .encoder else .decoder

/-- `LL` = OPND[15:0], unsigned, no scaling (R83). -/
def operandLL (opnd : BitVec 16) : BitVec 16 := opnd

/-- `B` = OPND[7:0] (R83). -/
def operandB (opnd : BitVec 16) : Octet := opnd.extractLsb' 0 8

/-- `C` = OPND[15:0] (R83). -/
def operandC (opnd : BitVec 16) : CodeUnit := opnd

end Sys2Proof.Machine
end

