-- ==== Sys2Proof/Syntax.lean ====
section
/-! DEFINITION. The instructions: one constructor per row of the opcode map (30_encoding.md R75). An operand
has the type of the field it stands for (R83), so no instruction carries a bit that R74 says must be 0. -/

namespace Sys2Proof

/-- The nine operations of command set B64DP-1 (30_encoding.md R75). -/
inductive Instr where
  /-- `ENC.INIT LL`: begin an encoder stream with line length `LL` (40_encoder.md R110). -/
  | encInit (ll : BitVec 16)
  /-- `ENC.BYTE B`: take one source byte (R111). -/
  | encByte (b : Octet)
  /-- `ENC.FLUSH`: end the stream, emit the padded group (R112). -/
  | encFlush
  /-- `ENC.RDSTAT`: read the encoder status word (R113). -/
  | encRdstat
  /-- `ENC.RDCFG`: read the encoder configuration word (R114). -/
  | encRdcfg
  /-- `ENC.RDPEND`: read the pending-byte buffer (R115). -/
  | encRdpend
  /-- `DEC.INIT`: begin a decoder stream (41_decoder.md R150). -/
  | decInit
  /-- `DEC.CHAR C`: take one input character (R151). -/
  | decChar (c : CodeUnit)
  /-- `DEC.RDSTAT`: read the decoder status word (R152). -/
  | decRdstat
  deriving DecidableEq, Repr

/-- The unit that performs an instruction: its `U` bit (30_encoding.md R71, R75). -/
def Instr.unit : Instr → CodecUnit
  | .encInit _ => .encoder
  | .encByte _ => .encoder
  | .encFlush => .encoder
  | .encRdstat => .encoder
  | .encRdcfg => .encoder
  | .encRdpend => .encoder
  | .decInit => .decoder
  | .decChar _ => .decoder
  | .decRdstat => .decoder

end Sys2Proof
end

