-- ==== Sys2Proof/WellFormed.lean ====
section
/-! DEFINITION. Well-formedness is a matter of the assembler's source lines (30_encoding.md R85): there an operand
is a number, and "An operand outside its range is an assembly error." A term of Instr needs no check of its own,
since its operand's type is the field's. -/

namespace Sys2Proof

/-- A source line of the assembler (30_encoding.md R85) or a pseudo-instruction (R86), its numbers as written. -/
inductive SourceLine where
  | encInit (ll : Nat)
  | encByte (b : Nat)
  | encFlush
  | encRdstat
  | encRdcfg
  | encRdpend
  | decInit
  | decChar (c : Nat)
  | decRdstat
  /-- `.word w`: the raw command word, legal or not (R85). -/
  | word (w : Nat)
  /-- `enc.write [b0, ...]`, and `enc.write "text"` with the codes of the text (R86). -/
  | encWrite (bs : List Nat)
  /-- `enc.encode <list>`: `enc.write <list>` and then `enc.flush` (R86). -/
  | encEncode (bs : List Nat)
  /-- `dec.write "text"`, with the code units of the text (R86). -/
  | decWrite (cs : List Nat)
  deriving DecidableEq, Repr

/-- The operand ranges of 30_encoding.md R85; a list's elements are held to the range of the command each becomes. -/
def SourceLine.wellFormed : SourceLine → Bool
  | .encInit ll => decide (ll ≤ 65535)
  | .encByte b => decide (b ≤ 255)
  | .encFlush => true
  | .encRdstat => true
  | .encRdcfg => true
  | .encRdpend => true
  | .decInit => true
  | .decChar c => decide (c ≤ 0xFFFF)
  | .decRdstat => true
  | .word w => decide (w < 2 ^ 32)
  | .encWrite bs => bs.all fun b => decide (b ≤ 255)
  | .encEncode bs => bs.all fun b => decide (b ≤ 255)
  | .decWrite cs => cs.all fun c => decide (c ≤ 0xFFFF)

end Sys2Proof
end

