-- ==== Sys2Proof/Decode.lean ====
section
/-! DEFINITION. The decode procedure of 30_encoding.md R88, total on every 32-bit word, the encoder of R85, and the
assembly of source lines and pseudo-instructions into command words (R85, R86). -/

namespace Sys2Proof

open Machine

/-- What decoding a word gives: an instruction, or a usage error raised on a unit (R88). -/
inductive Decoded where
  | instr (i : Instr)
  | usageError (u : CodecUnit) (e : UsageError)
  deriving DecidableEq, Repr

/-- `(U, OP)` is reserved (30_encoding.md R76). -/
def reservedOp (u : CodecUnit) (op : BitVec 3) : Bool :=
  match u with
  | .encoder => op == 6#3 || op == 7#3
  | .decoder => op == 2#3 || op == 4#3 || op == 5#3 || op == 6#3 || op == 7#3

/-- A must-be-0 bit of `OPND` is 1 (30_encoding.md R74), for an assigned `(U, OP)`. -/
def operandBitsBad (u : CodecUnit) (op : BitVec 3) (opnd : BitVec 16) : Bool :=
  match u with
  | .encoder =>
      (op == 1#3 && opnd.extractLsb' 8 8 != 0#8)
        || ((op == 2#3 || op == 3#3 || op == 4#3 || op == 5#3) && opnd != 0#16)
  | .decoder => (op == 0#3 || op == 3#3) && opnd != 0#16

/-- The row of 30_encoding.md R75 that a word with no illegal field selects. The last case is reached by no such word. -/
def dispatchRow (u : CodecUnit) (op : BitVec 3) (opnd : BitVec 16) : Decoded :=
  match u, op.toNat with
  | .encoder, 0 => .instr (.encInit (operandLL opnd))
  | .encoder, 1 => .instr (.encByte (operandB opnd))
  | .encoder, 2 => .instr .encFlush
  | .encoder, 3 => .instr .encRdstat
  | .encoder, 4 => .instr .encRdcfg
  | .encoder, 5 => .instr .encRdpend
  | .decoder, 0 => .instr .decInit
  | .decoder, 1 => .instr (.decChar (operandC opnd))
  | .decoder, 3 => .instr .decRdstat
  | u, _ => .usageError u .rsvdOp

/-- The decode procedure, its checks in the order of 30_encoding.md R88. -/
def decode (w : Word) : Decoded :=
  if reservedOp (unitOf w) (fieldOp w) then .usageError (unitOf w) .rsvdOp
  else if fieldRsv w != 0#12 then .usageError (unitOf w) .rsvdField
  else if operandBitsBad (unitOf w) (fieldOp w) (fieldOpnd w) then .usageError (unitOf w) .rsvdField
  else dispatchRow (unitOf w) (fieldOp w) (fieldOpnd w)

/-- The command word of an instruction (30_encoding.md R85). -/
def encode : Instr → Word
  | .encInit ll => 0x00000000#32 ||| ll.setWidth 32
  | .encByte b => 0x10000000#32 ||| b.setWidth 32
  | .encFlush => 0x20000000#32
  | .encRdstat => 0x30000000#32
  | .encRdcfg => 0x40000000#32
  | .encRdpend => 0x50000000#32
  | .decInit => 0x80000000#32
  | .decChar c => 0x90000000#32 ||| c.setWidth 32
  | .decRdstat => 0xB0000000#32

/-- `enc.write`: one `ENC.BYTE` per byte, in order (30_encoding.md R86). -/
def encWriteWords (bs : List Octet) : List Word := bs.map fun b => encode (.encByte b)

/-- `enc.encode`: `enc.write` and then `enc.flush` (R86). -/
def encEncodeWords (bs : List Octet) : List Word := encWriteWords bs ++ [encode .encFlush]

/-- `dec.write`: one `DEC.CHAR` per code unit, in order (R86). -/
def decWriteWords (cs : List CodeUnit) : List Word := cs.map fun c => encode (.decChar c)

/-- The command words of a source line, none where an operand is out of range (R85, R86). -/
def assemble (l : SourceLine) : Option (List Word) :=
  if l.wellFormed then
    some (match l with
      | .encInit ll => [encode (.encInit (BitVec.ofNat 16 ll))]
      | .encByte b => [encode (.encByte (BitVec.ofNat 8 b))]
      | .encFlush => [encode .encFlush]
      | .encRdstat => [encode .encRdstat]
      | .encRdcfg => [encode .encRdcfg]
      | .encRdpend => [encode .encRdpend]
      | .decInit => [encode .decInit]
      | .decChar c => [encode (.decChar (BitVec.ofNat 16 c))]
      | .decRdstat => [encode .decRdstat]
      | .word w => [BitVec.ofNat 32 w]
      | .encWrite bs => encWriteWords (bs.map (BitVec.ofNat 8))
      | .encEncode bs => encEncodeWords (bs.map (BitVec.ofNat 8))
      | .decWrite cs => decWriteWords (cs.map (BitVec.ofNat 16)))
  else none

/-- The code units of a text: a code point above 0xFFFF is a surrogate pair (92_eei_decisions.md D4). -/
def textCodeUnits : List Char → List Nat
  | [] => []
  | c :: cs =>
      if c.toNat < 0x10000 then c.toNat :: textCodeUnits cs
      else (0xD800 + (c.toNat - 0x10000) / 0x400) :: (0xDC00 + (c.toNat - 0x10000) % 0x400) :: textCodeUnits cs

/-- The instruction the decoder reads from the table's number `w` of `nbits` bits: every command is one 32-bit
word (30_encoding.md R84), the bits above `nbits` are 0. -/
def decodeTableWord (nbits w : Nat) : Option Instr :=
  match decode (BitVec.ofNat 32 (w % 2 ^ nbits)) with
  | .instr i => some i
  | .usageError _ _ => none

end Sys2Proof
end

