-- ==== Sys2Proof/Machine/State.lean ====
section
/-! DEFINITION. The state of the block, as plain data: the elements of 10_state.md R20 to R34, and the two sides of the
command port. -/

namespace Sys2Proof.Machine

/-- The encoder unit's elements (10_state.md R21 to R30). -/
structure EncoderUnit where
  /-- `LL`, the line length, 0 for none (R21). -/
  ll : BitVec 16
  /-- `PCNT`, the pending-byte count (R23). -/
  pcnt : BitVec 2
  /-- `PB0`, the older pending byte (R24). -/
  pb0 : Octet
  /-- `PB1`, the newer pending byte (R24). -/
  pb1 : Octet
  /-- `COL`, the column counter (R27). -/
  col : BitVec 17
  /-- `FLUSHED` (R29). -/
  flushed : Bool
  /-- `EERR`, the usage-error code (R30). -/
  eerr : BitVec 3
  deriving DecidableEq, Repr

/-- The decoder unit's elements (10_state.md R31 to R34). -/
structure DecoderUnit where
  /-- `PHASE`, the phase counter (R31). -/
  phase : BitVec 2
  /-- `REM`, the bit accumulator (R32). -/
  rem : BitVec 6
  /-- `DERR`, the usage-error code (R34). -/
  derr : BitVec 3
  deriving DecidableEq, Repr

/-- The result record of a command (30_encoding.md R77). -/
structure Record where
  /-- `OUT_LEN`. -/
  outLen : BitVec 3
  /-- `OUT_DATA`. -/
  outData : BitVec 40
  /-- `RDATA`. -/
  rdata : Word
  /-- `FAIL`. -/
  fail : Bool
  deriving DecidableEq, Repr

/-- A record as the host holds it: with the unit its command addressed (the host knows: the `U` bit of the word it issued), and
whether the command ran to its end. `completed` is false only for a command that a hardware reset cut off, whose
record is then a free value (93_implementation_defined.md I11). -/
structure Response where
  unit : CodecUnit
  record : Record
  completed : Bool
  deriving DecidableEq, Repr

/-- What the host does to the block (10_state.md R35, 70_reset_and_hazards.md R190). -/
inductive HostInput where
  /-- Issue a command word on the command port. -/
  | command (w : Word)
  /-- Assert the reset input between commands. -/
  | reset
  /-- Assert the reset input while the command `w` is in progress. -/
  | resetDuring (w : Word)
  deriving DecidableEq, Repr

/-- The whole state. `enc` and `dec` are the spec's (10_state.md R20); `inputs`, `responses` and `draws` are the model's own. -/
structure State where
  enc : EncoderUnit
  dec : DecoderUnit
  /-- What the host is about to do, oldest first (log entry 2). -/
  inputs : List HostInput
  /-- What the block has returned to the host, oldest first (log entry 3). -/
  responses : List Response
  /-- How many free values have been drawn (log entry 4). -/
  draws : Nat
  deriving DecidableEq, Repr

/-- Why the machine stops with a fault. -/
inductive Fault where
  /-- Raised by ENC.BYTE, ENC.FLUSH, ENC.RDSTAT and ENC.RDPEND when they read `PCNT` = 3, which has no meaning and which no
  run reaches (92_eei_decisions.md D29, 93_implementation_defined.md I8). Safe: the machine stops. -/
  | pendingCountThree
  deriving DecidableEq, Repr

/-- Why the model has no meaning for an instruction. -/
inductive Refusal where
  /-- Raised by exec for an instruction that has no meaning yet; no arm does so in this model. Safe: the machine stops. -/
  | notModelled (mnemonic : String)
  deriving DecidableEq, Repr

/-- The encoder unit after hardware reset (10_state.md R39). -/
def EncoderUnit.reset : EncoderUnit :=
  { ll := 0#16, pcnt := 0#2, pb0 := 0#8, pb1 := 0#8, col := 0#17, flushed := false, eerr := 0#3 }

/-- The decoder unit after hardware reset (10_state.md R39). -/
def DecoderUnit.reset : DecoderUnit := { phase := 0#2, rem := 0#6, derr := 0#3 }

/-- The machine right after reset (10_state.md R39), the host having issued nothing and been handed nothing (DESIGN CHOICE,
log entries 2, 3 and 4). -/
def State.reset : State :=
  { enc := EncoderUnit.reset, dec := DecoderUnit.reset, inputs := [], responses := [], draws := 0 }

end Sys2Proof.Machine
end

