-- ==== Sys2Proof/Machine/Flags.lean ====
section
/-! DEFINITION. The status flags and conditions: the usage-error codes and their sticky field (60_exceptions.md R171, R173), the
flags of 10_state.md R36, and the line-break condition (40_encoder.md R101). -/

namespace Sys2Proof.Machine

/-- The code of a usage error (60_exceptions.md R171). -/
def errorCode : UsageError → BitVec 3
  | .rsvdOp => 1#3
  | .rsvdField => 2#3
  | .afterFlush => 3#3

/-- An `ERR` field after a usage error: written only while it holds 0 (60_exceptions.md R173). -/
def stickyError (old : BitVec 3) (e : UsageError) : BitVec 3 :=
  if old = 0#3 then errorCode e else old

/-- The flag `EERR != 0` (10_state.md R36). -/
def encErrorFlag (e : EncoderUnit) : Bool := e.eerr != 0#3

/-- The flag `DERR != 0` (10_state.md R36). -/
def decErrorFlag (d : DecoderUnit) : Bool := d.derr != 0#3

/-- Line wrapping is enabled exactly when `LL != 0` (10_state.md R22). -/
def wrapping (e : EncoderUnit) : Bool := e.ll != 0#16

/-- A line break is due before the next group: `LL != 0 and COL >= zext_17(LL)` (40_encoder.md R101, 90_conflicts.md C3). -/
def breakDue (e : EncoderUnit) : Bool := wrapping e && decide (e.ll.setWidth 17 ≤ e.col)

end Sys2Proof.Machine
end

