-- ==== Sys2Proof/Config.lean ====
section
/-! DEFINITION. What an implementation fixes and what the spec leaves free. An opaque constant here has
no body: a proof cannot see its value, so a claim about it holds for every value. -/

namespace Sys2Proof

/-- The implementer's choice behind the OPEN parameter `LB_CHAR` (00_scope.md R7, 92_eei_decisions.md D9).
DESIGN CHOICE (log entry 1): it ranges over all octets, and `Machine.lbChar` makes a legal octet of it. -/
opaque Config.lbCharChosen : Octet

/-- The default of `LB_CHAR`, line feed (00_scope.md R7). -/
def Config.lbCharDefault : Octet := 0x0A#8

/-- Free value: `OUT_LEN` of the record of a command that a hardware reset cut off
(93_implementation_defined.md I11; log entry 4). -/
opaque Config.cutOutLen : Nat → BitVec 3

/-- Free value: `OUT_DATA` of the record of a command that a hardware reset cut off (log entry 4). -/
opaque Config.cutOutData : Nat → BitVec 40

/-- Free value: `RDATA` of the record of a command that a hardware reset cut off (log entry 4). -/
opaque Config.cutRdata : Nat → Word

/-- Free value: `FAIL` of the record of a command that a hardware reset cut off (log entry 4). -/
opaque Config.cutFail : Nat → Bool

end Sys2Proof
end

