-- ==== Sys2Proof/Machine/Tables.lean ====
section
/-! DEFINITION. The two constant tables (20_memory.md R51, R52) and the two constant octets (R56). They are not state
(10_state.md R41). -/

namespace Sys2Proof.Machine

/-- The alphabet ROM `ALPHA`, in the closed form of 20_memory.md R51. -/
def alpha (i : SymbolIndex) : Octet :=
  if i.toNat ≤ 25 then BitVec.ofNat 8 (0x41 + i.toNat)
  else if i.toNat ≤ 51 then BitVec.ofNat 8 (0x61 + (i.toNat - 26))
  else if i.toNat ≤ 61 then BitVec.ofNat 8 (0x30 + (i.toNat - 52))
  else if i.toNat = 62 then 0x2B#8
  else 0x2F#8

/-- The reverse lookup `REV` (R52): the whole code unit is compared, and `none` is `ABSENT`, distinct from index 0 (R54). -/
def rev (c : CodeUnit) : Option SymbolIndex :=
  if 0x41 ≤ c.toNat ∧ c.toNat ≤ 0x5A then some (BitVec.ofNat 6 (c.toNat - 0x41))
  else if 0x61 ≤ c.toNat ∧ c.toNat ≤ 0x7A then some (BitVec.ofNat 6 (c.toNat - 0x61 + 26))
  else if 0x30 ≤ c.toNat ∧ c.toNat ≤ 0x39 then some (BitVec.ofNat 6 (c.toNat - 0x30 + 52))
  else if c.toNat = 0x2B then some 62#6
  else if c.toNat = 0x2F then some 63#6
  else none

/-- The padding octet `PAD`, the character `=` (R56). -/
def pad : Octet := 0x3D#8

/-- The legality condition on a line-break octet (00_scope.md R7): `REV` is `ABSENT` on it. -/
def legalLineBreak (o : Octet) : Bool := (rev (o.setWidth 16)).isNone

/-- `LB_CHAR` of this machine: the implementer's octet where that is legal, else the default. It takes every legal value
and no other (00_scope.md R7; log entry 1). -/
def lbChar : Octet :=
  if legalLineBreak Config.lbCharChosen then Config.lbCharChosen else Config.lbCharDefault

end Sys2Proof.Machine
end

