-- ==== Sys2Proof/Machine/Ops.lean ====
section
/-! DEFINITION. The shared operations: the result record, the usage error, the parts of the two datapaths, hardware reset, the
readback words. An operation that inserts a line break takes the octet as an argument (00_scope.md R7). -/

namespace Sys2Proof.Machine

/-! ### The result record (30_encoding.md R77) -/

/-- `OUT_DATA` of an output sequence: octet k in bits [8k+7 : 8k], the rest 0. -/
def packOctets : List Octet → BitVec 40
  | [] => 0#40
  | o :: os => (packOctets os <<< 8) ||| o.setWidth 40

/-- The record of a command that succeeded with output `out` and readback word `rdata`. -/
def successRecord (out : List Octet) (rdata : Word) : Record :=
  { outLen := BitVec.ofNat 3 out.length, outData := packOctets out, rdata := rdata, fail := false }

/-- The record of a command that failed (60_exceptions.md R172). -/
def failRecord : Record := { outLen := 0#3, outData := 0#40, rdata := 0#32, fail := true }

/-- The output sequence `OUT` that a record carries. -/
def recordOut (r : Record) : List Octet :=
  (List.range r.outLen.toNat).map fun k => r.outData.extractLsb' (8 * k) 8

/-- The block returns the record of a command that ran to its end. -/
def respond (u : CodecUnit) (r : Record) (s : State) : State :=
  { s with responses := s.responses ++ [{ unit := u, record := r, completed := true }] }

/-- The encoder unit's elements replaced. -/
def withEnc (e : EncoderUnit) (s : State) : State := { s with enc := e }

/-- The decoder unit's elements replaced. -/
def withDec (d : DecoderUnit) (s : State) : State := { s with dec := d }

/-! ### Usage errors (60_exceptions.md R172 to R175)

There is no return from one: an `ERR` field is cleared by a successful `INIT` of its unit or by hardware reset, and by
nothing else (R179). -/

/-- The unit's `ERR` field takes the code of the error, if it holds 0. -/
def recordError (u : CodecUnit) (e : UsageError) (s : State) : State :=
  match u with
  | .encoder => withEnc { s.enc with eerr := stickyError s.enc.eerr e } s
  | .decoder => withDec { s.dec with derr := stickyError s.dec.derr e } s

/-- `raise UsageError(code)` on a unit: record it there, fail the command, change nothing else (R172). -/
def raiseUsageError (u : CodecUnit) (e : UsageError) (s : State) : State :=
  respond u failRecord (recordError u e s)

/-! ### The encoder datapath (40_encoder.md R100 to R104) -/

/-- The character mapper `MAP` (R100), by the expressions of the source document. -/
def mapper (v1 v2 v3 : Octet) : List Octet :=
  [alpha ((v1 >>> 2).setWidth 6),
   alpha ((((v1 &&& 0x3#8) <<< 4) ||| (v2 >>> 4)).setWidth 6),
   alpha ((((v2 &&& 0xF#8) <<< 2) ||| (v3 >>> 6)).setWidth 6),
   alpha ((v3 &&& 0x3F#8).setWidth 6)]

/-- The line-break insert logic `LBI` (R101): the unit after it, and what it emits. -/
def lineBreak (lb : Octet) (e : EncoderUnit) : EncoderUnit × List Octet :=
  if breakDue e then ({ e with col := 0#17 }, [lb]) else (e, [])

/-- Group emission `GROUP(v1, v2, v3, k)` (R102): k data characters, then padding; `COL` advances by 4 modulo 2^17 after
the break check. -/
def group (lb : Octet) (v1 v2 v3 : Octet) (k : Nat) (e : EncoderUnit) : EncoderUnit × List Octet :=
  ({ (lineBreak lb e).1 with col := (lineBreak lb e).1.col + 4#17 },
   (lineBreak lb e).2 ++ (mapper v1 v2 v3).take k ++ List.replicate (4 - k) pad)

/-- `PUSH(b)`, used only when `PCNT <= 1` (R104). -/
def push (b : Octet) (e : EncoderUnit) : EncoderUnit :=
  if e.pcnt = 0#2 then { e with pb0 := b, pcnt := 1#2 } else { e with pb1 := b, pcnt := 2#2 }

/-- `CLEAR()` (R104). -/
def clearPending (e : EncoderUnit) : EncoderUnit := { e with pcnt := 0#2, pb0 := 0#8, pb1 := 0#8 }

/-! ### The decoder datapath (41_decoder.md R141, R142) -/

/-- `ACC(v)` (R142): the unit after a present symbol, and the octet emitted, if any. -/
def accumulate (v : SymbolIndex) (d : DecoderUnit) : DecoderUnit × List Octet :=
  if d.phase = 0#2 then ({ d with rem := v, phase := 1#2 }, [])
  else if d.phase = 1#2 then
    ({ d with rem := v &&& 0xF#6, phase := 2#2 },
     [(d.rem.setWidth 8 <<< 2) ||| (v >>> 4).setWidth 8])
  else if d.phase = 2#2 then
    ({ d with rem := v &&& 0x3#6, phase := 3#2 },
     [(d.rem.setWidth 8 <<< 4) ||| (v >>> 2).setWidth 8])
  else
    ({ d with rem := 0#6, phase := 0#2 },
     [(d.rem.setWidth 8 <<< 6) ||| v.setWidth 8])

/-! ### Readback words (30_encoding.md R78 to R81) -/

/-- `zext_32( COL ++ 0b0 ++ EERR ++ 0b0 ++ FLUSHED ++ PCNT )` (R78). -/
def encStatusWord (e : EncoderUnit) : Word :=
  (e.col ++ 0b0#1 ++ e.eerr ++ 0b0#1 ++ BitVec.ofBool e.flushed ++ e.pcnt).setWidth 32

/-- `zext_32( LB_CHAR ++ LL )` (R79). -/
def encConfigWord (lb : Octet) (e : EncoderUnit) : Word := (lb ++ e.ll).setWidth 32

/-- `zext_32( PCNT ++ PB1 ++ PB0 )` (R80). -/
def encPendingWord (e : EncoderUnit) : Word := (e.pcnt ++ e.pb1 ++ e.pb0).setWidth 32

/-- `zext_32( REM ++ 0b0 ++ DERR ++ 0b00 ++ PHASE )` (R81). -/
def decStatusWord (d : DecoderUnit) : Word :=
  (d.rem ++ 0b0#1 ++ d.derr ++ 0b00#2 ++ d.phase).setWidth 32

/-! ### Hardware reset (70_reset_and_hazards.md R190) -/

/-- Both units take the reset state; what the host holds is its own. -/
def hardwareReset (s : State) : State := withDec DecoderUnit.reset (withEnc EncoderUnit.reset s)

/-- The free record of a command that a reset cut off (93_implementation_defined.md I11). -/
def cutRecord (n : Nat) : Record :=
  { outLen := Config.cutOutLen n, outData := Config.cutOutData n, rdata := Config.cutRdata n, fail := Config.cutFail n }

/-- Reset asserted while a command of unit `u` is in progress: its record is any value, the state afterwards is the reset
state (R190, I11). -/
def cutByReset (u : CodecUnit) (s : State) : State :=
  hardwareReset
    { s with
      responses := s.responses ++ [{ unit := u, record := cutRecord s.draws, completed := false }]
      draws := s.draws + 1 }

end Sys2Proof.Machine
end

