-- ==== Sys2Proof/Machine/Decoder.lean ====
section
/-! DEFINITION. The meanings of the decoder unit's three operations (41_decoder.md R150 to R152). -/

namespace Sys2Proof.Machine

open Host

/-- `DEC.INIT` (41_decoder.md R150). -/
def execDecInit (s : State) : Outcome State Fault Refusal :=
  .next (respond .decoder (successRecord [] 0#32)
    (withDec { s.dec with phase := 0#2, rem := 0#6, derr := 0#3 } s))

/-- `DEC.CHAR C` (41_decoder.md R151): an absent code unit is skipped, a present one goes to the accumulator. -/
def execDecChar (c : CodeUnit) (s : State) : Outcome State Fault Refusal :=
  match rev c with
  | none => .next (respond .decoder (successRecord [] 0#32) s)
  | some v =>
      .next (respond .decoder (successRecord (accumulate v s.dec).2 0#32) (withDec (accumulate v s.dec).1 s))

/-- `DEC.RDSTAT` (41_decoder.md R152). -/
def execDecRdstat (s : State) : Outcome State Fault Refusal :=
  .next (respond .decoder (successRecord [] (decStatusWord s.dec)) s)

end Sys2Proof.Machine
end

