-- ==== Sys2Proof/Machine/Encoder.lean ====
section
/-! DEFINITION. The meanings of the encoder unit's six operations (40_encoder.md R110 to R115). Where `LB_CHAR` is read, the meaning
is a form that takes it as an argument (00_scope.md R7), applied to this machine's `lbChar`. -/

namespace Sys2Proof.Machine

open Host

/-- `ENC.INIT LL` (40_encoder.md R110). -/
def execEncInit (ll : BitVec 16) (s : State) : Outcome State Fault Refusal :=
  .next (respond .encoder (successRecord [] 0#32)
    (withEnc { clearPending s.enc with ll := ll, col := 0#17, flushed := false, eerr := 0#3 } s))

/-- `ENC.BYTE B` with the line-break octet `lb` (40_encoder.md R111). -/
def encByteWith (lb : Octet) (b : Octet) (s : State) : Outcome State Fault Refusal :=
  if s.enc.flushed then .next (raiseUsageError .encoder .afterFlush s)
  else if s.enc.pcnt = 3#2 then .fault .pendingCountThree
  else if s.enc.pcnt = 2#2 then
    .next (respond .encoder (successRecord (group lb s.enc.pb0 s.enc.pb1 b 4 s.enc).2 0#32)
      (withEnc (clearPending (group lb s.enc.pb0 s.enc.pb1 b 4 s.enc).1) s))
  else .next (respond .encoder (successRecord [] 0#32) (withEnc (push b s.enc) s))

/-- `ENC.BYTE B` (40_encoder.md R111). -/
def execEncByte (b : Octet) (s : State) : Outcome State Fault Refusal := encByteWith lbChar b s

/-- What `ENC.FLUSH` emits for the pending bytes, and the unit after it (40_encoder.md R103, R112). -/
def flushGroup (lb : Octet) (e : EncoderUnit) : EncoderUnit × List Octet :=
  if e.pcnt = 2#2 then group lb e.pb0 e.pb1 0x00#8 3 e
  else if e.pcnt = 1#2 then group lb e.pb0 0x00#8 0x00#8 2 e
  else (e, [])

/-- `ENC.FLUSH` with the line-break octet `lb` (40_encoder.md R112). -/
def encFlushWith (lb : Octet) (s : State) : Outcome State Fault Refusal :=
  if s.enc.flushed then .next (raiseUsageError .encoder .afterFlush s)
  else if s.enc.pcnt = 3#2 then .fault .pendingCountThree
  else .next (respond .encoder (successRecord (flushGroup lb s.enc).2 0#32)
    (withEnc { clearPending (flushGroup lb s.enc).1 with flushed := true } s))

/-- `ENC.FLUSH` (40_encoder.md R112). -/
def execEncFlush (s : State) : Outcome State Fault Refusal := encFlushWith lbChar s

/-- `ENC.RDSTAT` (40_encoder.md R113). -/
def execEncRdstat (s : State) : Outcome State Fault Refusal :=
  if s.enc.pcnt = 3#2 then .fault .pendingCountThree
  else .next (respond .encoder (successRecord [] (encStatusWord s.enc)) s)

/-- `ENC.RDCFG` with the line-break octet `lb` (40_encoder.md R114). -/
def encRdcfgWith (lb : Octet) (s : State) : Outcome State Fault Refusal :=
  .next (respond .encoder (successRecord [] (encConfigWord lb s.enc)) s)

/-- `ENC.RDCFG` (40_encoder.md R114). -/
def execEncRdcfg (s : State) : Outcome State Fault Refusal := encRdcfgWith lbChar s

/-- `ENC.RDPEND` (40_encoder.md R115). -/
def execEncRdpend (s : State) : Outcome State Fault Refusal :=
  if s.enc.pcnt = 3#2 then .fault .pendingCountThree
  else .next (respond .encoder (successRecord [] (encPendingWord s.enc)) s)

end Sys2Proof.Machine
end

