-- ==== Sys2Proof/Machine/Dispatch.lean ====
section
/-! DEFINITION. The dispatch of an instruction to its meaning: one arm per constructor of Instr. -/

namespace Sys2Proof.Machine

open Host

def exec (i : Instr) (s : State) : Host.Outcome State Fault Refusal :=
  match i with
  | .encInit ll => Sys2Proof.Machine.execEncInit ll s
  | .encByte b => Sys2Proof.Machine.execEncByte b s
  | .encFlush => Sys2Proof.Machine.execEncFlush s
  | .encRdstat => Sys2Proof.Machine.execEncRdstat s
  | .encRdcfg => Sys2Proof.Machine.execEncRdcfg s
  | .encRdpend => Sys2Proof.Machine.execEncRdpend s
  | .decInit => Sys2Proof.Machine.execDecInit s
  | .decChar c => Sys2Proof.Machine.execDecChar c s
  | .decRdstat => Sys2Proof.Machine.execDecRdstat s

end Sys2Proof.Machine
end

