-- ==== Sys2Proof/Machine/Port.lean ====
section
/-! DEFINITION. The command port: what one host input does to the block (30_encoding.md R70, R88; 70_reset_and_hazards.md R190). -/

namespace Sys2Proof.Machine

open Host

/-- A command word is decoded (R88); an instruction runs, an illegal word is a usage error on the unit it selects
(60_exceptions.md R172, R175). -/
def performWord (w : Word) (s : State) : Outcome State Fault Refusal :=
  match decode w with
  | .instr i => exec i s
  | .usageError u e => .next (raiseUsageError u e s)

/-- One host input. -/
def performInput (x : HostInput) (s : State) : Outcome State Fault Refusal :=
  match x with
  | .command w => performWord w s
  | .reset => .next (hardwareReset s)
  | .resetDuring w => .next (cutByReset (unitOf w) s)

/-- The port takes the host's oldest input; while the host offers nothing, nothing happens (log entry 2). -/
def takeInput (s : State) : Outcome State Fault Refusal :=
  match s.inputs with
  | [] => .next s
  | x :: rest => performInput x { s with inputs := rest }

/-- The host offers the command word of the table's number `w` of `nbits` bits before everything else it has to do. -/
def offerWord (s : State) (nbits w : Nat) : State :=
  { s with inputs := .command (BitVec.ofNat 32 (w % 2 ^ nbits)) :: s.inputs }

end Sys2Proof.Machine
end

