-- ==== Sys2Proof/Safety.lean ====
section
/-! DEFINITION. What claims speak of: the invariants of the state, the streams a run returns, and the reference algorithms of the source
document that streams are compared with. -/

namespace Sys2Proof.Machine

/-! ### Invariants -/

/-- A pending-byte count that has a meaning (10_state.md R25). -/
abbrev CountOk (e : EncoderUnit) : Prop := e.pcnt ≠ 3#2

/-- A slot that holds no pending byte holds 0 (10_state.md R26). -/
abbrev SlotsOk (e : EncoderUnit) : Prop :=
  (e.pcnt = 0#2 → e.pb0 = 0#8 ∧ e.pb1 = 0#8) ∧ (e.pcnt = 1#2 → e.pb1 = 0#8)

/-- `4 * ceil(LL / 4)`, the characters of a full line (40_encoder.md R123). -/
def fullLine (ll : BitVec 16) : Nat := 4 * ((ll.toNat + 3) / 4)

/-- `COL` is a multiple of 4, and bounded by a full line while wrapping is enabled (10_state.md R28). -/
abbrev ColumnOk (e : EncoderUnit) : Prop :=
  e.col.toNat % 4 = 0 ∧ (e.ll ≠ 0#16 → e.col.toNat ≤ fullLine e.ll)

/-- After a flush nothing is pending (40_encoder.md R112, R126). -/
abbrev FlushOk (e : EncoderUnit) : Prop := e.flushed = true → e.pcnt = 0#2

/-- The range of `REM` by `PHASE` (10_state.md R33). -/
abbrev RemOk (d : DecoderUnit) : Prop :=
  (d.phase = 0#2 → d.rem = 0#6) ∧ (d.phase = 2#2 → d.rem.toNat ≤ 15) ∧ (d.phase = 3#2 → d.rem.toNat ≤ 3)

/-- The legal values of the two `ERR` fields (60_exceptions.md R171). -/
abbrev ErrorsOk (s : State) : Prop := s.enc.eerr.toNat ≤ 3 ∧ s.dec.derr.toNat ≤ 2

/-- The form of a record that a command returns (30_encoding.md R77, 60_exceptions.md R172). -/
abbrev RecordOk (r : Record) : Prop :=
  r.outLen.toNat ≤ 5
    ∧ (∀ k < 5, r.outLen.toNat ≤ k → r.outData.extractLsb' (8 * k) 8 = 0#8)
    ∧ (r.fail = true → r.outLen = 0#3 ∧ r.outData = 0#40 ∧ r.rdata = 0#32)

/-- Every record of a command that ran to its end has that form. -/
abbrev ResponsesOk (s : State) : Prop := ∀ p ∈ s.responses, p.completed = true → RecordOk p.record

/-- The invariant of the whole machine. -/
abbrev State.Inv (s : State) : Prop :=
  CountOk s.enc ∧ SlotsOk s.enc ∧ ColumnOk s.enc ∧ FlushOk s.enc ∧ RemOk s.dec ∧ ErrorsOk s ∧ ResponsesOk s

/-! ### Records, streams and runs -/

/-- The record of a command that succeeded with no output and readback word `w`. -/
abbrev silentRecord (w : Word) : Record := { outLen := 0#3, outData := 0#40, rdata := w, fail := false }

/-- The record of a command that succeeded with the octets `d` (octet 0 lowest) and no readback word. -/
abbrev outputRecord (n : BitVec 3) (d : BitVec 40) : Record := { outLen := n, outData := d, rdata := 0#32, fail := false }

/-- `s` after one more completed command of unit `u` with record `r`. -/
abbrev State.answered (s : State) (u : CodecUnit) (r : Record) : State :=
  { s with responses := s.responses ++ [{ unit := u, record := r, completed := true }] }

/-- The responses of one unit, in order. -/
def unitResponses (u : CodecUnit) (ps : List Response) : List Response := ps.filter fun p => p.unit == u

/-- A unit's output stream: the concatenation of the `OUT` sequences of its commands in issue order (20_memory.md R59,
70_reset_and_hazards.md R200). A command that a reset cut off has no defined output and adds nothing. -/
def unitOutput (u : CodecUnit) (ps : List Response) : List Octet :=
  ps.flatMap fun p => if p.unit = u ∧ p.completed = true then recordOut p.record else []

/-- `s` with exactly these command words on the host's side of the port, oldest first. -/
def State.withCommands (s : State) (ws : List Word) : State := { s with inputs := ws.map HostInput.command }

/-- The host issues these command words, one after the other. -/
def issue (ws : List Word) (s : State) : Host.Outcome State Fault Refusal :=
  Sys2Proof.core.run ws.length (s.withCommands ws)

/-- The host issues one chunk of command words after another (00_scope.md, chunk). -/
def issueChunks : List (List Word) → State → Host.Outcome State Fault Refusal
  | [], s => .next (s.withCommands [])
  | ws :: wss, s =>
      match issue ws s with
      | .next t => issueChunks wss t
      | .fault r => .fault r
      | .refused r => .refused r

/-- The words of a whole encoder stream: `enc.init ll`, then `enc.encode bs` (30_encoding.md R86). -/
def encStreamWords (ll : BitVec 16) (bs : List Octet) : List Word := encode (.encInit ll) :: encEncodeWords bs

/-- The words of a whole decoder stream: `dec.init`, then `dec.write cs`. -/
def decStreamWords (cs : List CodeUnit) : List Word := encode .decInit :: decWriteWords cs

/-! ### The source document's `write` over whole chunks (40_encoder.md R120) -/

/-- The pending bytes, older first. -/
def pendingBytes (e : EncoderUnit) : List Octet :=
  if e.pcnt = 0#2 then [] else if e.pcnt = 1#2 then [e.pb0] else [e.pb0, e.pb1]

/-- The unit with zero, one or two bytes stored as pending. -/
def storePending (left : List Octet) (e : EncoderUnit) : EncoderUnit :=
  match left with
  | [] => { e with pcnt := 0#2, pb0 := 0#8, pb1 := 0#8 }
  | [a] => { e with pcnt := 1#2, pb0 := a, pb1 := 0#8 }
  | a :: b :: _ => { e with pcnt := 2#2, pb0 := a, pb1 := b }

/-- Steps 2 and 3: the non-overlapping triples, each a group after its break check; the unit, the output and the bytes left. -/
def documentGroups (lb : Octet) : List Octet → EncoderUnit → EncoderUnit × List Octet × List Octet
  | v1 :: v2 :: v3 :: rest, e =>
      let g := group lb v1 v2 v3 4 e
      let r := documentGroups lb rest g.1
      (r.1, g.2 ++ r.2.1, r.2.2)
  | left, e => (e, [], left)

/-- `write(chunk)`: the pending bytes and the chunk are cut into groups of three, and the rest is buffered (steps 1 to 5). -/
def documentWrite (lb : Octet) (chunk : List Octet) (e : EncoderUnit) : EncoderUnit × List Octet :=
  let r := documentGroups lb (pendingBytes e ++ chunk) e
  (storePending r.2.2 r.1, r.2.1)

/-! ### Bit strings (20_memory.md R58) -/

/-- The bits of a value, most significant first. -/
def bitString {w : Nat} (v : BitVec w) : List Bool := (List.range w).map fun k => v.getMsbD k

/-- The bits that the decoder holds and has not emitted: 6, 4 or 2 of them in phases 1, 2 and 3 (10_state.md R33). -/
def heldBits (d : DecoderUnit) : List Bool :=
  if d.phase = 0#2 then []
  else if d.phase = 1#2 then bitString d.rem
  else if d.phase = 2#2 then bitString (d.rem.extractLsb' 0 4)
  else bitString (d.rem.extractLsb' 0 2)

end Sys2Proof.Machine
end

