-- ==== Sys2Proof/Certificates/Slice0/Obligations.lean ====
section
/-! DEFINITION. The statements for the provers. Each docstring names the rule of the spec it formalises. -/

open Sys2Proof Sys2Proof.Machine

/-! ### Encoding -/

/-- 30_encoding.md R75, R85: nine words written out from the opcode map decode to the instructions they stand for. -/
def Obligations.WrittenWordsDecode : Prop :=
  decode 0x0000004C#32 = .instr (.encInit 76#16)
    ∧ decode 0x1000006C#32 = .instr (.encByte 0x6C#8)
    ∧ decode 0x20000000#32 = .instr .encFlush
    ∧ decode 0x30000000#32 = .instr .encRdstat
    ∧ decode 0x40000000#32 = .instr .encRdcfg
    ∧ decode 0x50000000#32 = .instr .encRdpend
    ∧ decode 0x80000000#32 = .instr .decInit
    ∧ decode 0x90000141#32 = .instr (.decChar 0x0141#16)
    ∧ decode 0xB0000000#32 = .instr .decRdstat

/-- Decoding an instruction's command word gives it back, at every operand value. -/
def Obligations.DecodeOfEncodeIsTheInstruction : Prop :=
  ∀ i : Instr, decode (encode i) = .instr i

/-- Every legal word has one meaning: it is the command word of the instruction it decodes to. -/
def Obligations.EncodeOfDecodeIsTheWord : Prop :=
  ∀ (w : Word) (i : Instr), decode w = .instr i → encode i = w

/-- 30_encoding.md R75: a word is the instruction of a row exactly when (w & mask) = match, its operand the field of R83. -/
def Obligations.WordIsRowExactlyWhenMaskMatches : Prop :=
  ∀ w : Word,
    (w &&& 0xFFFF0000#32 = 0x00000000#32 ↔ decode w = .instr (.encInit (w.extractLsb' 0 16)))
    ∧ (w &&& 0xFFFFFF00#32 = 0x10000000#32 ↔ decode w = .instr (.encByte (w.extractLsb' 0 8)))
    ∧ (w &&& 0xFFFFFFFF#32 = 0x20000000#32 ↔ decode w = .instr .encFlush)
    ∧ (w &&& 0xFFFFFFFF#32 = 0x30000000#32 ↔ decode w = .instr .encRdstat)
    ∧ (w &&& 0xFFFFFFFF#32 = 0x40000000#32 ↔ decode w = .instr .encRdcfg)
    ∧ (w &&& 0xFFFFFFFF#32 = 0x50000000#32 ↔ decode w = .instr .encRdpend)
    ∧ (w &&& 0xFFFFFFFF#32 = 0x80000000#32 ↔ decode w = .instr .decInit)
    ∧ (w &&& 0xFFFF0000#32 = 0x90000000#32 ↔ decode w = .instr (.decChar (w.extractLsb' 0 16)))
    ∧ (w &&& 0xFFFFFFFF#32 = 0xB0000000#32 ↔ decode w = .instr .decRdstat)

/-- 30_encoding.md R76: a reserved (U, OP) fails with RSVD_OP on its unit whatever the other bits are, and no other word does. -/
def Obligations.ReservedOpcodeRaisesRsvdOp : Prop :=
  ∀ w : Word,
    ((w.extractLsb' 28 4 = 6#4 ∨ w.extractLsb' 28 4 = 7#4) ↔ decode w = .usageError .encoder .rsvdOp)
    ∧ ((w.extractLsb' 28 4 = 10#4 ∨ w.extractLsb' 28 4 = 12#4 ∨ w.extractLsb' 28 4 = 13#4 ∨ w.extractLsb' 28 4 = 14#4
          ∨ w.extractLsb' 28 4 = 15#4) ↔ decode w = .usageError .decoder .rsvdOp)

/-- 30_encoding.md R73, R74: with an assigned (U, OP), a word fails with RSVD_FIELD exactly when RSV is not 0 or one of the
operand bits that R74 says must be 0 is 1. -/
def Obligations.MustBeZeroBitsRaiseRsvdField : Prop :=
  ∀ w : Word,
    (decode w = .usageError .encoder .rsvdField ↔
      (w.extractLsb' 28 4 ∈ [0#4, 1#4, 2#4, 3#4, 4#4, 5#4]
        ∧ (w.extractLsb' 16 12 ≠ 0#12
          ∨ (w.extractLsb' 28 4 = 1#4 ∧ w.extractLsb' 8 8 ≠ 0#8)
          ∨ (w.extractLsb' 28 4 ∈ [2#4, 3#4, 4#4, 5#4] ∧ w.extractLsb' 0 16 ≠ 0#16))))
    ∧ (decode w = .usageError .decoder .rsvdField ↔
      (w.extractLsb' 28 4 ∈ [8#4, 9#4, 11#4]
        ∧ (w.extractLsb' 16 12 ≠ 0#12
          ∨ (w.extractLsb' 28 4 ∈ [8#4, 11#4] ∧ w.extractLsb' 0 16 ≠ 0#16))))

/-- 30_encoding.md R85, R86: a source line with its operands in range assembles to the word of R85's table or to the words of R86's
expansion, one with an operand out of range has no words, and no line but `.word` ever makes an illegal word. -/
def Obligations.AssemblyMakesOnlyLegalWords : Prop :=
  (∀ ll : Nat, assemble (.encInit ll) = if ll ≤ 65535 then some [0x00000000#32 ||| BitVec.ofNat 32 ll] else none)
    ∧ (∀ b : Nat, assemble (.encByte b) = if b ≤ 255 then some [0x10000000#32 ||| BitVec.ofNat 32 b] else none)
    ∧ assemble .encFlush = some [0x20000000#32]
    ∧ assemble .encRdstat = some [0x30000000#32]
    ∧ assemble .encRdcfg = some [0x40000000#32]
    ∧ assemble .encRdpend = some [0x50000000#32]
    ∧ assemble .decInit = some [0x80000000#32]
    ∧ (∀ c : Nat, assemble (.decChar c) = if c ≤ 0xFFFF then some [0x90000000#32 ||| BitVec.ofNat 32 c] else none)
    ∧ assemble .decRdstat = some [0xB0000000#32]
    ∧ (∀ w : Nat, assemble (.word w) = if w < 2 ^ 32 then some [BitVec.ofNat 32 w] else none)
    ∧ (∀ bs : List Nat, assemble (.encWrite bs) =
        if ∀ b ∈ bs, b ≤ 255 then some (bs.map fun b => 0x10000000#32 ||| BitVec.ofNat 32 b) else none)
    ∧ (∀ bs : List Nat, assemble (.encEncode bs) =
        if ∀ b ∈ bs, b ≤ 255 then some ((bs.map fun b => 0x10000000#32 ||| BitVec.ofNat 32 b) ++ [0x20000000#32]) else none)
    ∧ (∀ cs : List Nat, assemble (.decWrite cs) =
        if ∀ c ∈ cs, c ≤ 0xFFFF then some (cs.map fun c => 0x90000000#32 ||| BitVec.ofNat 32 c) else none)
    ∧ ∀ l : SourceLine, (∀ w, l ≠ .word w) → ∀ ws, assemble l = some ws → ∀ w ∈ ws, ∃ i, decode w = .instr i

/-! ### The step and the command port -/

/-- A step on a legal command word runs the instruction it decodes to, the word taken off the host's side of the port. -/
def Obligations.StepRunsTheDecodedInstruction : Prop :=
  ∀ (s : State) (w : Word) (rest : List HostInput) (i : Instr),
    s.inputs = .command w :: rest → decode w = .instr i → step s = exec i { s with inputs := rest }

/-- 60_exceptions.md R172, R173, R175: a step on an illegal word writes the ERR field of the unit that bit 31 selects while it holds
0, returns a record with FAIL = 1 and everything else 0, and changes no other element of either unit. -/
def Obligations.IllegalWordOnlyRecordsItsError : Prop :=
  ∀ (s : State) (w : Word) (rest : List HostInput) (u : CodecUnit) (e : UsageError),
    s.inputs = .command w :: rest → decode w = .usageError u e →
    (u = .decoder ↔ w.getLsbD 31 = true)
    ∧ ∃ code : BitVec 3,
        ((e = .rsvdOp ∧ code = 1#3) ∨ (e = .rsvdField ∧ code = 2#3))
        ∧ step s = .next
            { s with
              enc := { s.enc with eerr := if u = .encoder ∧ s.enc.eerr = 0#3 then code else s.enc.eerr }
              dec := { s.dec with derr := if u = .decoder ∧ s.dec.derr = 0#3 then code else s.dec.derr }
              inputs := rest
              responses := s.responses
                ++ [{ unit := u, record := { outLen := 0#3, outData := 0#40, rdata := 0#32, fail := true }, completed := true }] }

/-- The model's own choice (log entry 2): while the host offers nothing, a step changes nothing. -/
def Obligations.StepWithoutInputChangesNothing : Prop :=
  ∀ s : State, s.inputs = [] → step s = .next s

/-- 70_reset_and_hazards.md R190, 10_state.md R39: the reset input makes every element of both units 0. That the rest of the host's list
(log entry 2), the records already returned (log entry 3) and the free-value counter (log entry 4) survive a reset is the
model's choice and no rule of the spec. -/
def Obligations.ResetInputGivesResetState : Prop :=
  ∀ (s : State) (rest : List HostInput), s.inputs = .reset :: rest →
    step s = .next
      { s with
        enc := { ll := 0#16, pcnt := 0#2, pb0 := 0#8, pb1 := 0#8, col := 0#17, flushed := false, eerr := 0#3 }
        dec := { phase := 0#2, rem := 0#6, derr := 0#3 }
        inputs := rest }

/-- 70_reset_and_hazards.md R190, 93_implementation_defined.md I11: a command that a reset cuts off leaves both units as reset does, and
its record may hold any value. The other clauses are the model's choice and no rule of the spec: that the cut command returns
exactly one record, marked as not completed, and that the counter `draws` advances (log entry 4); that the records
already returned are kept (log entry 3); that the rest of the host's list is kept (log entry 2). -/
def Obligations.ResetDuringCommandGivesResetState : Prop :=
  ∀ (s : State) (w : Word) (rest : List HostInput), s.inputs = .resetDuring w :: rest →
    ∃ r : Record, step s = .next
      { s with
        enc := EncoderUnit.reset
        dec := DecoderUnit.reset
        inputs := rest
        responses := s.responses ++ [{ unit := unitOf w, record := r, completed := false }]
        draws := s.draws + 1 }

/-- 20_memory.md R62: commands are performed one at a time in issue order, each seeing all the state the earlier ones left. -/
def Obligations.CommandsRunInIssueOrder : Prop :=
  ∀ (ws₁ ws₂ : List Word) (s t : State), issue ws₁ s = .next t → issue (ws₁ ++ ws₂) s = issue ws₂ t

/-- 40_encoder.md R121, 41_decoder.md R156: splitting a stream's commands into chunks changes neither the end state nor any record. -/
def Obligations.ChunkingIsTransparent : Prop :=
  ∀ (chunks : List (List Word)) (s : State), issueChunks chunks s = issue chunks.flatten s

/-! ### Reset and invariants -/

/-- 10_state.md R39: after hardware reset every element of both units is 0. -/
def Obligations.ResetValues : Prop :=
  State.reset.enc.ll = 0#16 ∧ State.reset.enc.pcnt = 0#2 ∧ State.reset.enc.pb0 = 0#8 ∧ State.reset.enc.pb1 = 0#8
    ∧ State.reset.enc.col = 0#17 ∧ State.reset.enc.flushed = false ∧ State.reset.enc.eerr = 0#3
    ∧ State.reset.dec.phase = 0#2 ∧ State.reset.dec.rem = 0#6 ∧ State.reset.dec.derr = 0#3

/-- The invariant of the whole machine holds right after reset. -/
def Obligations.ResetMeetsTheInvariant : Prop := State.reset.Inv

/-- Every step keeps the invariant of the whole machine (10_state.md R25, R26, R28, R33; 30_encoding.md R77; 60_exceptions.md R171). -/
def Obligations.StepKeepsTheInvariant : Prop :=
  ∀ s t : State, s.Inv → step s = .next t → t.Inv

/-- 10_state.md R25: no step produces PCNT = 3 from a state where PCNT is at most 2. -/
def Obligations.StepNeverMakesPendingCountThree : Prop :=
  ∀ s t : State, s.enc.pcnt.toNat ≤ 2 → step s = .next t → t.enc.pcnt.toNat ≤ 2

/-- 10_state.md R33: the range of REM by PHASE holds after every step. -/
def Obligations.StepKeepsRemRangeByPhase : Prop :=
  ∀ s t : State, RemOk s.dec → step s = .next t → RemOk t.dec

/-- 10_state.md R28: COL stays a multiple of 4 and, while wrapping is enabled, at most 4 * ceil(LL / 4), which is at most LL + 3, at most
65536 and less than 2^17. -/
def Obligations.StepKeepsColumnBound : Prop :=
  (∀ s t : State, ColumnOk s.enc → step s = .next t → ColumnOk t.enc)
    ∧ ∀ ll : BitVec 16, fullLine ll ≤ ll.toNat + 3 ∧ fullLine ll ≤ 65536 ∧ fullLine ll < 2 ^ 17

/-- 60_exceptions.md R170, R176: with a pending count that has a meaning, every step completes, whatever the host does. (That a step
while the host offers nothing completes too is the model's choice, log entry 2.) -/
def Obligations.EveryStepCompletes : Prop :=
  ∀ s : State, s.enc.pcnt ≠ 3#2 → ∃ t, step s = .next t

/-- 92_eei_decisions.md D29 and the model's choice of log entry 6: the four operations that read PCNT stop with a fault where it
holds 3. -/
def Obligations.PendingCountThreeFaults : Prop :=
  ∀ (s : State) (b : Octet), s.enc.pcnt = 3#2 →
    (s.enc.flushed = false → exec (.encByte b) s = .fault .pendingCountThree ∧ exec .encFlush s = .fault .pendingCountThree)
    ∧ exec .encRdstat s = .fault .pendingCountThree ∧ exec .encRdpend s = .fault .pendingCountThree

/-! ### Whole-machine rules -/

/-- 10_state.md R20 to R34 and R36: each element is written only by the operations the spec names for it. -/
def Obligations.ElementsAreWrittenOnlyByTheirOperations : Prop :=
  ∀ (i : Instr) (s t : State), exec i s = .next t →
    (t.enc.ll ≠ s.enc.ll → ∃ ll, i = .encInit ll)
    ∧ (t.enc.flushed ≠ s.enc.flushed → (∃ ll, i = .encInit ll) ∨ i = .encFlush)
    ∧ ((t.enc.pcnt ≠ s.enc.pcnt ∨ t.enc.pb0 ≠ s.enc.pb0 ∨ t.enc.pb1 ≠ s.enc.pb1 ∨ t.enc.col ≠ s.enc.col) →
        (∃ ll, i = .encInit ll) ∨ (∃ b, i = .encByte b) ∨ i = .encFlush)
    ∧ (t.enc.eerr ≠ s.enc.eerr → (∃ ll, i = .encInit ll) ∨ (∃ b, i = .encByte b) ∨ i = .encFlush)
    ∧ ((t.dec.phase ≠ s.dec.phase ∨ t.dec.rem ≠ s.dec.rem) → i = .decInit ∨ ∃ c, i = .decChar c)
    ∧ (t.dec.derr ≠ s.dec.derr → i = .decInit)
    ∧ t.inputs = s.inputs ∧ t.draws = s.draws

/-- 10_state.md R40: an operation of one unit neither writes nor reads the other unit's state. -/
def Obligations.UnitsShareNoState : Prop :=
  ∀ (i : Instr) (s t : State), exec i s = .next t →
    (i.unit = .encoder → t.dec = s.dec ∧ ∀ d, exec i { s with dec := d } = .next { t with dec := d })
    ∧ (i.unit = .decoder → t.enc = s.enc ∧ ∀ e, exec i { s with enc := e } = .next { t with enc := e })

/-- 20_memory.md R62: however the commands of the two units are interleaved, legal or not, each unit ends as it does when its own
commands are issued alone, and returns the same records. -/
def Obligations.InterleavingCannotMatter : Prop :=
  ∀ (ws : List Word) (s : State), s.enc.pcnt ≠ 3#2 →
    ∃ t tEnc tDec : State,
      issue ws s = .next t
      ∧ issue (ws.filter fun w => unitOf w == .encoder) s = .next tEnc
      ∧ issue (ws.filter fun w => unitOf w == .decoder) s = .next tDec
      ∧ t.enc = tEnc.enc ∧ t.dec = tDec.dec
      ∧ unitResponses .encoder t.responses = unitResponses .encoder tEnc.responses
      ∧ unitResponses .decoder t.responses = unitResponses .decoder tDec.responses

/-! ### Usage errors -/

/-- 60_exceptions.md R172, R173 for AFTER_FLUSH: ENC.BYTE and ENC.FLUSH while FLUSHED = 1 record code 3 while EERR holds 0, fail, and
change nothing else. -/
def Obligations.UseAfterFlushOnlyRecordsItsError : Prop :=
  ∀ (s : State) (b : Octet) (i : Instr), s.enc.flushed = true → (i = .encByte b ∨ i = .encFlush) →
    exec i s = .next
      { s with
        enc := { s.enc with eerr := if s.enc.eerr = 0#3 then 3#3 else s.enc.eerr }
        responses := s.responses
          ++ [{ unit := .encoder, record := { outLen := 0#3, outData := 0#40, rdata := 0#32, fail := true }, completed := true }] }

/-- 60_exceptions.md R173, R179: an ERR field that holds an error keeps it through every step but a successful INIT of its unit or a
reset, which clear it to 0. -/
def Obligations.FirstErrorIsKeptUntilInitOrReset : Prop :=
  ∀ (s t : State) (x : HostInput) (rest : List HostInput), s.inputs = x :: rest → step s = .next t →
    (s.enc.eerr ≠ 0#3 →
      ((∃ w ll, x = .command w ∧ decode w = .instr (.encInit ll)) ∨ x = .reset ∨ (∃ w, x = .resetDuring w) → t.enc.eerr = 0#3)
      ∧ (¬((∃ w ll, x = .command w ∧ decode w = .instr (.encInit ll)) ∨ x = .reset ∨ (∃ w, x = .resetDuring w)) →
          t.enc.eerr = s.enc.eerr))
    ∧ (s.dec.derr ≠ 0#3 →
      ((∃ w, x = .command w ∧ decode w = .instr .decInit) ∨ x = .reset ∨ (∃ w, x = .resetDuring w) → t.dec.derr = 0#3)
      ∧ (¬((∃ w, x = .command w ∧ decode w = .instr .decInit) ∨ x = .reset ∨ (∃ w, x = .resetDuring w)) →
          t.dec.derr = s.dec.derr))

/-- 60_exceptions.md R174: of the errors that apply to one command, RSVD_OP is reported before RSVD_FIELD and that before AFTER_FLUSH. -/
def Obligations.ErrorsAreReportedByPriority : Prop :=
  ∀ (s t : State) (w : Word) (rest : List HostInput), s.inputs = .command w :: rest → step s = .next t →
    s.enc.eerr = 0#3 → s.enc.flushed = true →
    (w.extractLsb' 28 4 ∈ [6#4, 7#4] → t.enc.eerr = 1#3)
    ∧ (w.extractLsb' 28 4 ∈ [1#4, 2#4] →
        (w.extractLsb' 16 12 ≠ 0#12 ∨ w.extractLsb' 8 8 ≠ 0#8 ∨ (w.extractLsb' 28 4 = 2#4 ∧ w.extractLsb' 0 8 ≠ 0#8) →
          t.enc.eerr = 2#3)
        ∧ (w.extractLsb' 16 12 = 0#12 → w.extractLsb' 8 8 = 0#8 → (w.extractLsb' 28 4 = 2#4 → w.extractLsb' 0 8 = 0#8) →
          t.enc.eerr = 3#3))

/-- 60_exceptions.md R176: an error that a unit holds changes nothing about a later command but the ERR field that it reads back: with
the ERR fields taken out, the next state is the same, and so is the record of every command but a status readback. -/
def Obligations.HeldErrorChangesNoLaterCommand : Prop :=
  ∀ (i : Instr) (s t : State) (x y : BitVec 3), exec i s = .next t →
    ∃ t', exec i { s with enc := { s.enc with eerr := x }, dec := { s.dec with derr := y } } = .next t'
      ∧ { t' with enc := { t'.enc with eerr := 0#3 }, dec := { t'.dec with derr := 0#3 }, responses := [] }
          = { t with enc := { t.enc with eerr := 0#3 }, dec := { t.dec with derr := 0#3 }, responses := [] }
      ∧ (i ≠ .encRdstat → i ≠ .decRdstat → t'.responses = t.responses)

/-! ### The encoder unit -/

/-- 70_reset_and_hazards.md R191 (with 40_encoder.md R110, 41_decoder.md R150): an INIT leaves its unit exactly as reset does, except that
LL takes the operand, and changes nothing of the other unit. -/
def Obligations.InitLeavesUnitAsReset : Prop :=
  ∀ (s : State) (ll : BitVec 16),
    exec (.encInit ll) s = .next ({ s with enc := { State.reset.enc with ll := ll } }.answered .encoder (silentRecord 0#32))
    ∧ exec .decInit s = .next ({ s with dec := State.reset.dec }.answered .decoder (silentRecord 0#32))

/-- 40_encoder.md R104, R111, R126: with fewer than two bytes pending, ENC.BYTE buffers its byte and outputs nothing. -/
def Obligations.EncByteBuffersUntilTheThird : Prop :=
  ∀ (s : State) (b : Octet), s.enc.flushed = false →
    (s.enc.pcnt = 0#2 →
      exec (.encByte b) s = .next ({ s with enc := { s.enc with pcnt := 1#2, pb0 := b } }.answered .encoder (silentRecord 0#32)))
    ∧ (s.enc.pcnt = 1#2 →
      exec (.encByte b) s = .next ({ s with enc := { s.enc with pcnt := 2#2, pb1 := b } }.answered .encoder (silentRecord 0#32)))

/-- 40_encoder.md R100 to R102, R111, R126: the third byte completes a group: the four symbols of the bit fields, octet 0 lowest in
OUT_DATA, after a line break where LL != 0 and COL >= LL; COL counts the group from the break. -/
def Obligations.EncByteEmitsTheGroup : Prop :=
  ∀ (s : State) (b : Octet), s.enc.flushed = false → s.enc.pcnt = 2#2 →
    ∃ c0 c1 c2 c3 : Octet,
      c0 = alpha (s.enc.pb0.extractLsb' 2 6)
      ∧ c1 = alpha (s.enc.pb0.extractLsb' 0 2 ++ s.enc.pb1.extractLsb' 4 4)
      ∧ c2 = alpha (s.enc.pb1.extractLsb' 0 4 ++ b.extractLsb' 6 2)
      ∧ c3 = alpha (b.extractLsb' 0 6)
      ∧ (s.enc.ll ≠ 0#16 ∧ s.enc.ll.toNat ≤ s.enc.col.toNat →
          exec (.encByte b) s = .next
            ({ s with enc := { s.enc with pcnt := 0#2, pb0 := 0#8, pb1 := 0#8, col := 4#17 } }.answered .encoder
              (outputRecord 5#3 (c3 ++ c2 ++ c1 ++ c0 ++ lbChar))))
      ∧ (¬(s.enc.ll ≠ 0#16 ∧ s.enc.ll.toNat ≤ s.enc.col.toNat) →
          exec (.encByte b) s = .next
            ({ s with enc := { s.enc with pcnt := 0#2, pb0 := 0#8, pb1 := 0#8, col := s.enc.col + 4#17 } }.answered .encoder
              (outputRecord 4#3 (0#8 ++ c3 ++ c2 ++ c1 ++ c0))))

/-- 40_encoder.md R103, R112, R126: ENC.FLUSH pads the pending bytes with zeros to a group, keeps 2 or 3 of its symbols and appends
`==` or `=`, after a line break where one is due; with nothing pending it outputs nothing. FLUSHED becomes 1. -/
def Obligations.EncFlushEmitsThePaddedGroup : Prop :=
  ∀ s : State, s.enc.flushed = false →
    (s.enc.pcnt = 0#2 →
      exec .encFlush s = .next
        ({ s with enc := { s.enc with pb0 := 0#8, pb1 := 0#8, flushed := true } }.answered .encoder (silentRecord 0#32)))
    ∧ ∀ d : BitVec 32,
      ((s.enc.pcnt = 1#2 ∧ d = 0x3D#8 ++ 0x3D#8 ++ alpha (s.enc.pb0.extractLsb' 0 2 ++ 0#4) ++ alpha (s.enc.pb0.extractLsb' 2 6))
        ∨ (s.enc.pcnt = 2#2 ∧ d = 0x3D#8 ++ alpha (s.enc.pb1.extractLsb' 0 4 ++ 0#2)
            ++ alpha (s.enc.pb0.extractLsb' 0 2 ++ s.enc.pb1.extractLsb' 4 4) ++ alpha (s.enc.pb0.extractLsb' 2 6))) →
      (s.enc.ll ≠ 0#16 ∧ s.enc.ll.toNat ≤ s.enc.col.toNat →
        exec .encFlush s = .next
          ({ s with enc := { s.enc with pcnt := 0#2, pb0 := 0#8, pb1 := 0#8, col := 4#17, flushed := true } }.answered .encoder
            (outputRecord 5#3 (d ++ lbChar))))
      ∧ (¬(s.enc.ll ≠ 0#16 ∧ s.enc.ll.toNat ≤ s.enc.col.toNat) →
        exec .encFlush s = .next
          ({ s with enc := { s.enc with pcnt := 0#2, pb0 := 0#8, pb1 := 0#8, col := s.enc.col + 4#17, flushed := true } }.answered
            .encoder (outputRecord 4#3 (0#8 ++ d))))

/-- 30_encoding.md R78, R79, R80: the three encoder readbacks change nothing and return each element in its field, every other bit 0. -/
def Obligations.EncoderReadbacksReturnTheirFields : Prop :=
  ∀ s : State,
    ∃ stat cfg pend : Word,
      (s.enc.pcnt ≠ 3#2 →
        exec .encRdstat s = .next (s.answered .encoder (silentRecord stat))
        ∧ exec .encRdpend s = .next (s.answered .encoder (silentRecord pend)))
      ∧ exec .encRdcfg s = .next (s.answered .encoder (silentRecord cfg))
      ∧ stat.extractLsb' 0 2 = s.enc.pcnt ∧ stat.getLsbD 2 = s.enc.flushed ∧ stat.getLsbD 3 = false
      ∧ stat.extractLsb' 4 3 = s.enc.eerr ∧ stat.getLsbD 7 = false ∧ stat.extractLsb' 8 17 = s.enc.col ∧ stat.extractLsb' 25 7 = 0#7
      ∧ cfg.extractLsb' 0 16 = s.enc.ll ∧ cfg.extractLsb' 16 8 = lbChar ∧ cfg.extractLsb' 24 8 = 0#8
      ∧ pend.extractLsb' 0 8 = s.enc.pb0 ∧ pend.extractLsb' 8 8 = s.enc.pb1 ∧ pend.extractLsb' 16 2 = s.enc.pcnt
      ∧ pend.extractLsb' 18 14 = 0#14

/-- 20_memory.md R57: output character k of a group is ALPHA of G[23-6k : 18-6k], where G = v1 ++ v2 ++ v3. -/
def Obligations.MapperTakesGroupWordBySixBits : Prop :=
  ∀ v1 v2 v3 : Octet,
    mapper v1 v2 v3 = [0, 1, 2, 3].map fun k => alpha ((v1 ++ v2 ++ v3).extractLsb' (18 - 6 * k) 6)

/-- 20_memory.md R53: ALPHA and REV are mutual inverses on the alphabet, and exactly 64 code units are present. -/
def Obligations.TablesAreMutualInverses : Prop :=
  (∀ i : SymbolIndex, rev ((alpha i).setWidth 16) = some i)
    ∧ (∀ (c : CodeUnit) (i : SymbolIndex), rev c = some i → c = (alpha i).setWidth 16)
    ∧ ∃ present : List CodeUnit, present.Nodup ∧ present.length = 64 ∧ ∀ c, c ∈ present ↔ rev c ≠ none

/-- 20_memory.md R56: both PAD and this machine's LB_CHAR are ABSENT in REV, and PAD is 0x3D. -/
def Obligations.PaddingAndLineBreakAreAbsent : Prop :=
  pad = 0x3D#8 ∧ rev (pad.setWidth 16) = none ∧ rev (lbChar.setWidth 16) = none

/-! ### The decoder unit -/

/-- 41_decoder.md R163 (with R142, R151): a present symbol moves the phase machine and emits the byte of its phase, in the bit-field
form; an absent code unit changes nothing and outputs nothing. -/
def Obligations.DecCharStepsThePhaseMachine : Prop :=
  ∀ (s : State) (c : CodeUnit),
    (rev c = none → exec (.decChar c) s = .next (s.answered .decoder (silentRecord 0#32)))
    ∧ ∀ v : SymbolIndex, rev c = some v →
      (s.dec.phase = 0#2 →
        exec (.decChar c) s = .next ({ s with dec := { s.dec with rem := v, phase := 1#2 } }.answered .decoder (silentRecord 0#32)))
      ∧ (s.dec.phase = 1#2 →
        exec (.decChar c) s = .next ({ s with dec := { s.dec with rem := v &&& 0xF#6, phase := 2#2 } }.answered .decoder
          (outputRecord 1#3 (0#32 ++ (s.dec.rem.extractLsb' 0 6 ++ v.extractLsb' 4 2)))))
      ∧ (s.dec.phase = 2#2 →
        exec (.decChar c) s = .next ({ s with dec := { s.dec with rem := v &&& 0x3#6, phase := 3#2 } }.answered .decoder
          (outputRecord 1#3 (0#32 ++ (s.dec.rem.extractLsb' 0 4 ++ v.extractLsb' 2 4)))))
      ∧ (s.dec.phase = 3#2 →
        exec (.decChar c) s = .next ({ s with dec := { s.dec with rem := 0#6, phase := 0#2 } }.answered .decoder
          (outputRecord 1#3 (0#32 ++ (s.dec.rem.extractLsb' 0 2 ++ v.extractLsb' 0 6)))))

/-- 41_decoder.md R151, R160, R162: DEC.CHAR completes without failing on every code unit in every state. -/
def Obligations.DecCharNeverFails : Prop :=
  ∀ (s : State) (c : CodeUnit), ∃ (d : DecoderUnit) (n : BitVec 3) (o : Octet),
    exec (.decChar c) s = .next ({ s with dec := d }.answered .decoder (outputRecord n (0#32 ++ o)))
      ∧ d.derr = s.dec.derr ∧ n.toNat ≤ 1 ∧ (n = 0#3 ↔ rev c = none ∨ s.dec.phase = 0#2)

/-- 20_memory.md R54: the symbol A is a present entry of value 0, and decoding it advances the phase. -/
def Obligations.SymbolAIsPresentWithValueZero : Prop :=
  rev 0x0041#16 = some 0#6
    ∧ ∀ s t : State, exec (.decChar 0x0041#16) s = .next t → t.dec.phase = s.dec.phase + 1#2

/-- 30_encoding.md R81: DEC.RDSTAT changes nothing and returns each element in its field, every other bit 0. -/
def Obligations.DecoderReadbackReturnsItsFields : Prop :=
  ∀ s : State, ∃ stat : Word,
    exec .decRdstat s = .next (s.answered .decoder (silentRecord stat))
      ∧ stat.extractLsb' 0 2 = s.dec.phase ∧ stat.extractLsb' 2 2 = 0#2 ∧ stat.extractLsb' 4 3 = s.dec.derr
      ∧ stat.getLsbD 7 = false ∧ stat.extractLsb' 8 6 = s.dec.rem ∧ stat.extractLsb' 14 18 = 0#18

/-! ### Streams -/

/-- 40_encoder.md R120: enc.write of a chunk, with FLUSHED = 0, gives exactly the output and the end state of the source document's
write steps over the whole chunk, for every chunk. -/
def Obligations.EncWriteRefinesTheDocumentWrite : Prop :=
  ∀ (s : State) (chunk : List Octet), CountOk s.enc → SlotsOk s.enc → s.enc.flushed = false →
    ∃ t, issue (encWriteWords chunk) s = .next t
      ∧ t.enc = (documentWrite lbChar chunk s.enc).1
      ∧ unitOutput .encoder t.responses = unitOutput .encoder s.responses ++ (documentWrite lbChar chunk s.enc).2
      ∧ t.dec = s.dec

/-- 40_encoder.md R122: a flushed stream of n bytes emits g = ceil(n / 3) groups of 4 symbol or padding octets, some of them after a line
break: no breaks where LL = 0, and max(0, g - 1) div q of them where LL != 0, q = ceil(LL / 4); so 4g + (max(0, g - 1) div q)
octets in all. A pair of `groups` is whether a break comes first, and the group's octets. -/
def Obligations.FlushedStreamHasItsLength : Prop :=
  ∀ (s : State) (ll : BitVec 16) (bs : List Octet),
    ∃ (t : State) (groups : List (Bool × List Octet)) (out : List Octet), issue (encStreamWords ll bs) s = .next t
      ∧ unitOutput .encoder t.responses = unitOutput .encoder s.responses ++ out
      ∧ out = (groups.flatMap fun p => (if p.1 = true then [lbChar] else []) ++ p.2)
      ∧ groups.length = (bs.length + 2) / 3
      ∧ (∀ p ∈ groups, p.2.length = 4 ∧ ∀ o ∈ p.2, o = pad ∨ rev (o.setWidth 16) ≠ none)
      ∧ (groups.countP fun p => p.1) = (if ll = 0#16 then 0 else ((bs.length + 2) / 3 - 1) / ((ll.toNat + 3) / 4))
      ∧ out.length = 4 * ((bs.length + 2) / 3)
          + if ll = 0#16 then 0 else ((bs.length + 2) / 3 - 1) / ((ll.toNat + 3) / 4)

/-- 40_encoder.md R123: with LL != 0, a flushed stream's output is a sequence of lines of symbols and padding with the line-break octet
between them; every line but the last holds exactly 4 * ceil(LL / 4) characters and the last 4 to that many; the empty
stream has no lines. -/
def Obligations.LinesHaveTheirWidth : Prop :=
  ∀ (s : State) (ll : BitVec 16) (bs : List Octet), ll ≠ 0#16 →
    ∃ t lines, issue (encStreamWords ll bs) s = .next t
      ∧ unitOutput .encoder t.responses = unitOutput .encoder s.responses ++ [lbChar].intercalate lines
      ∧ (lines = [] ↔ bs = [])
      ∧ (∀ line ∈ lines.dropLast, line.length = fullLine ll)
      ∧ (∀ line ∈ lines, 4 ≤ line.length ∧ line.length ≤ fullLine ll)
      ∧ ∀ line ∈ lines, ∀ o ∈ line, o = pad ∨ rev (o.setWidth 16) ≠ none

/-- 40_encoder.md R124: a flushed stream of n bytes ends with no `=` when n mod 3 = 0, two when n mod 3 = 1, one when n mod 3 = 2, and
before those come only symbols and line breaks, so no other `=` unless LB_CHAR itself is one (00_scope.md R7 allows it). -/
def Obligations.PaddingFollowsLengthModThree : Prop :=
  ∀ (s : State) (ll : BitVec 16) (bs : List Octet),
    ∃ t data, issue (encStreamWords ll bs) s = .next t
      ∧ unitOutput .encoder t.responses = unitOutput .encoder s.responses ++ data
          ++ List.replicate (if bs.length % 3 = 0 then 0 else if bs.length % 3 = 1 then 2 else 1) pad
      ∧ (∀ o ∈ data, rev (o.setWidth 16) ≠ none ∨ (ll ≠ 0#16 ∧ o = lbChar))
      ∧ (bs ≠ [] → ∃ o, data.getLast? = some o ∧ rev (o.setWidth 16) ≠ none)
      ∧ (ll = 0#16 ∨ lbChar ≠ pad → pad ∉ data)

/-- 20_memory.md R58: the bits of a decoder stream's present symbols, in order, are the bits of the bytes emitted followed by the
bits still held, of which there are 0 to 6. -/
def Obligations.DecoderEmitsTheBitString : Prop :=
  ∀ (s : State) (cs : List CodeUnit),
    ∃ t out, issue (decStreamWords cs) s = .next t
      ∧ unitOutput .decoder t.responses = unitOutput .decoder s.responses ++ out
      ∧ (cs.filterMap rev).flatMap bitString = out.flatMap bitString ++ heldBits t.dec
      ∧ (heldBits t.dec).length ≤ 6

/-- 41_decoder.md R159: a decoder stream that takes n present symbols, with any absent characters mixed in, emits floor(3n / 4) bytes. -/
def Obligations.DecoderEmitsThreeBytesPerFourSymbols : Prop :=
  ∀ (s : State) (cs : List CodeUnit),
    ∃ t out, issue (decStreamWords cs) s = .next t
      ∧ unitOutput .decoder t.responses = unitOutput .decoder s.responses ++ out
      ∧ out.length = 3 * (cs.filterMap rev).length / 4

/-- 41_decoder.md R158: absent code units inserted anywhere in a text change neither the decoder's output nor its end state; and `=` is
no terminator: the text `aGk=aGk=` decodes to 104, 105, 26, 26. -/
def Obligations.AbsentUnitsCanBeInsertedAnywhere : Prop :=
  (∀ (s : State) (cs cs' : List CodeUnit),
    (cs.filter fun c => (rev c).isSome) = (cs'.filter fun c => (rev c).isSome) →
      ∃ t t', issue (decWriteWords cs) s = .next t ∧ issue (decWriteWords cs') s = .next t'
        ∧ t.dec = t'.dec ∧ unitOutput .decoder t.responses = unitOutput .decoder t'.responses)
    ∧ ∃ t, issue (decStreamWords [0x61#16, 0x47#16, 0x6B#16, 0x3D#16, 0x61#16, 0x47#16, 0x6B#16, 0x3D#16]) State.reset = .next t
        ∧ unitOutput .decoder t.responses = [104#8, 105#8, 26#8, 26#8]

/-- 41_decoder.md R161: any bytes, encoded as a flushed stream at any line length and fed whole, line breaks included, to a fresh decoder
stream, come back; the decoder ends with REM = 0 and PHASE 0, 2 or 3 by the length mod 3. -/
def Obligations.RoundTripGivesTheBytesBack : Prop :=
  ∀ (s : State) (ll : BitVec 16) (bs : List Octet),
    ∃ t out t', issue (encStreamWords ll bs) s = .next t
      ∧ unitOutput .encoder t.responses = unitOutput .encoder s.responses ++ out
      ∧ issue (decStreamWords (out.map fun o => o.setWidth 16)) t = .next t'
      ∧ unitOutput .decoder t'.responses = unitOutput .decoder s.responses ++ bs
      ∧ t'.dec.rem = 0#6
      ∧ t'.dec.phase = if bs.length % 3 = 0 then 0#2 else if bs.length % 3 = 1 then 2#2 else 3#2
end

