-- ==== Sys2Proof/Laws/Decode.lean ====
section
/-! SUPPORT. What assembling a source line does, said once: an ill-formed line has no words, and a number in its operand's range stands in
the command word as it is. -/

namespace Sys2Proof

/-- A line with an operand out of its range has no words. -/
theorem assemble_of_illFormed {l : SourceLine} (h : l.wellFormed = false) : assemble l = none := by
  simp [assemble, h]

/-- A number that fits its field is the same number in the word. -/
theorem setWidth_ofNat_of_lt {k n : Nat} (hk : k ≤ 32) (h : n < 2 ^ k) : (BitVec.ofNat k n).setWidth 32 = BitVec.ofNat 32 n := by
  have h32 : n < 2 ^ 32 := lt_of_lt_of_le h (Nat.pow_le_pow_right (by decide) hk)
  apply BitVec.eq_of_toNat_eq
  simp only [BitVec.toNat_setWidth, BitVec.toNat_ofNat, Nat.mod_eq_of_lt h]

theorem encode_encInit_ofNat {ll : Nat} (h : ll ≤ 65535) :
    encode (.encInit (BitVec.ofNat 16 ll)) = 0x00000000#32 ||| BitVec.ofNat 32 ll := by
  simp only [encode, setWidth_ofNat_of_lt (k := 16) (by decide) (by omega : ll < 2 ^ 16)]

theorem encode_encByte_ofNat {b : Nat} (h : b ≤ 255) :
    encode (.encByte (BitVec.ofNat 8 b)) = 0x10000000#32 ||| BitVec.ofNat 32 b := by
  simp only [encode, setWidth_ofNat_of_lt (k := 8) (by decide) (by omega : b < 2 ^ 8)]

theorem encode_decChar_ofNat {c : Nat} (h : c ≤ 0xFFFF) :
    encode (.decChar (BitVec.ofNat 16 c)) = 0x90000000#32 ||| BitVec.ofNat 32 c := by
  simp only [encode, setWidth_ofNat_of_lt (k := 16) (by decide) (by omega : c < 2 ^ 16)]

/-- The words of `enc.write` of numbers in range. -/
theorem encWriteWords_ofNat {bs : List Nat} (h : ∀ b ∈ bs, b ≤ 255) :
    encWriteWords (bs.map (BitVec.ofNat 8)) = bs.map fun b => 0x10000000#32 ||| BitVec.ofNat 32 b := by
  simp only [encWriteWords, List.map_map]
  exact List.map_congr_left fun b hb => encode_encByte_ofNat (h b hb)

/-- The words of `dec.write` of code units in range. -/
theorem decWriteWords_ofNat {cs : List Nat} (h : ∀ c ∈ cs, c ≤ 0xFFFF) :
    decWriteWords (cs.map (BitVec.ofNat 16)) = cs.map fun c => 0x90000000#32 ||| BitVec.ofNat 32 c := by
  simp only [decWriteWords, List.map_map]
  exact List.map_congr_left fun c hc => encode_decChar_ofNat (h c hc)

end Sys2Proof
end

