-- ==== Sys2Proof/Laws/State.lean ====
section
/-! SUPPORT. One lemma per field per update of State, each true by unfolding, so that no later proof unfolds a record update. -/

namespace Sys2Proof.Machine

variable (s : State) (e : EncoderUnit) (d : DecoderUnit) (u : CodecUnit) (r : Record)

@[simp] theorem withEnc_enc : (withEnc e s).enc = e := rfl
@[simp] theorem withEnc_dec : (withEnc e s).dec = s.dec := rfl
@[simp] theorem withEnc_inputs : (withEnc e s).inputs = s.inputs := rfl
@[simp] theorem withEnc_responses : (withEnc e s).responses = s.responses := rfl
@[simp] theorem withEnc_draws : (withEnc e s).draws = s.draws := rfl

@[simp] theorem withDec_enc : (withDec d s).enc = s.enc := rfl
@[simp] theorem withDec_dec : (withDec d s).dec = d := rfl
@[simp] theorem withDec_inputs : (withDec d s).inputs = s.inputs := rfl
@[simp] theorem withDec_responses : (withDec d s).responses = s.responses := rfl
@[simp] theorem withDec_draws : (withDec d s).draws = s.draws := rfl

@[simp] theorem respond_enc : (respond u r s).enc = s.enc := rfl
@[simp] theorem respond_dec : (respond u r s).dec = s.dec := rfl
@[simp] theorem respond_inputs : (respond u r s).inputs = s.inputs := rfl
@[simp] theorem respond_responses :
    (respond u r s).responses = s.responses ++ [{ unit := u, record := r, completed := true }] := rfl
@[simp] theorem respond_draws : (respond u r s).draws = s.draws := rfl

@[simp] theorem hardwareReset_enc : (hardwareReset s).enc = EncoderUnit.reset := rfl
@[simp] theorem hardwareReset_dec : (hardwareReset s).dec = DecoderUnit.reset := rfl
@[simp] theorem hardwareReset_inputs : (hardwareReset s).inputs = s.inputs := rfl
@[simp] theorem hardwareReset_responses : (hardwareReset s).responses = s.responses := rfl
@[simp] theorem hardwareReset_draws : (hardwareReset s).draws = s.draws := rfl

@[simp] theorem cutByReset_enc : (cutByReset u s).enc = EncoderUnit.reset := rfl
@[simp] theorem cutByReset_dec : (cutByReset u s).dec = DecoderUnit.reset := rfl
@[simp] theorem cutByReset_inputs : (cutByReset u s).inputs = s.inputs := rfl
@[simp] theorem cutByReset_responses :
    (cutByReset u s).responses = s.responses ++ [{ unit := u, record := cutRecord s.draws, completed := false }] := rfl
@[simp] theorem cutByReset_draws : (cutByReset u s).draws = s.draws + 1 := rfl

end Sys2Proof.Machine
end

