-- ==== Sys2Proof/Laws/Ops.lean ====
section
/-! SUPPORT. What each shared operation does, said once: the record, the usage error, the parts of the two datapaths. -/

namespace Sys2Proof.Machine

/-! ### Records -/

/-- Octet k of the packed data of at most five octets is octet k of the sequence. -/
theorem packOctets_octet (os : List Octet) (h : os.length ≤ 5) (k : Nat) (hk : k < 5) :
    (packOctets os).extractLsb' (8 * k) 8 = os.getD k 0#8 := by
  induction os generalizing k with
  | nil => simp [packOctets]
  | cons o os ih =>
    have hlen : os.length ≤ 4 := by simp at h; omega
    cases k with
    | zero =>
      ext j hj
      simp [packOctets, BitVec.getElem_extractLsb', BitVec.getLsbD_or, BitVec.getLsbD_shiftLeft, BitVec.getLsbD_setWidth, hj]
      grind
    | succ k =>
      have := ih (by omega) k (by omega)
      ext j hj
      have e := congrArg (fun v : Octet => v.getLsbD j) this
      simp [hj] at e
      simp [packOctets, BitVec.getElem_extractLsb', BitVec.getLsbD_or, BitVec.getLsbD_shiftLeft, BitVec.getLsbD_setWidth]
      have h1 : 8 * (k + 1) + j < 40 := by omega
      have h2 : ¬ 8 * (k + 1) + j < 8 := by omega
      have h3 : 8 * (k + 1) + j - 8 = 8 * k + j := by omega
      have h4 : o.getLsbD (8 * (k + 1) + j) = false := BitVec.getLsbD_of_ge _ _ (by omega)
      simp [h1, h2, h3, h4, e, ← BitVec.getLsbD_eq_getElem]

/-- The output sequence of a record made from at most five octets is that sequence. -/
theorem recordOut_successRecord (os : List Octet) (w : Word) (h : os.length ≤ 5) :
    recordOut (successRecord os w) = os := by
  have hl : os.length % 2 ^ 3 = os.length := Nat.mod_eq_of_lt (by omega)
  apply List.ext_getElem
  · simp [recordOut, successRecord]; omega
  · intro k h1 h2
    simp [recordOut, successRecord, packOctets_octet os h k (by omega), List.getD_eq_getElem?_getD, h2]

@[simp] theorem recordOut_failRecord : recordOut failRecord = [] := rfl

/-! ### Usage errors -/

/-- A usage error is one response and one ERR field. -/
theorem raiseUsageError_eq (u : CodecUnit) (e : UsageError) (s : State) :
    raiseUsageError u e s =
      { s with
        enc := { s.enc with eerr := if u = .encoder then stickyError s.enc.eerr e else s.enc.eerr }
        dec := { s.dec with derr := if u = .decoder then stickyError s.dec.derr e else s.dec.derr }
        responses := s.responses ++ [{ unit := u, record := failRecord, completed := true }] } := by
  cases u <;> rfl

/-! ### The encoder datapath -/

/-- The unit after the line-break logic: only COL may have changed. -/
theorem lineBreak_unit (lb : Octet) (e : EncoderUnit) :
    (lineBreak lb e).1 = { e with col := if breakDue e then 0#17 else e.col } := by
  unfold lineBreak; split <;> rfl

/-- What the line-break logic emits. -/
theorem lineBreak_out (lb : Octet) (e : EncoderUnit) :
    (lineBreak lb e).2 = if breakDue e then [lb] else [] := by
  unfold lineBreak; split <;> rfl

/-- The unit after a group: only COL has changed. -/
theorem group_unit (lb v1 v2 v3 : Octet) (k : Nat) (e : EncoderUnit) :
    (group lb v1 v2 v3 k e).1 = { e with col := (if breakDue e then 0#17 else e.col) + 4#17 } := by
  simp [group, lineBreak_unit]

/-- What a group emits: the line break that is due, k symbols, and padding. -/
theorem group_out (lb v1 v2 v3 : Octet) (k : Nat) (e : EncoderUnit) :
    (group lb v1 v2 v3 k e).2
      = (if breakDue e then [lb] else []) ++ (mapper v1 v2 v3).take k ++ List.replicate (4 - k) pad := by
  simp [group, lineBreak_out]

/-- A group is 4 octets after its optional line break. -/
theorem group_out_length (lb v1 v2 v3 : Octet) (k : Nat) (hk : k ≤ 4) (e : EncoderUnit) :
    (group lb v1 v2 v3 k e).2.length = (if breakDue e then 1 else 0) + 4 := by
  rw [group_out]; split <;> simp [mapper] <;> omega

/-! ### The decoder datapath -/

/-- The accumulator emits at most one octet, and leaves DERR alone. -/
theorem accumulate_out_length (v : SymbolIndex) (d : DecoderUnit) : (accumulate v d).2.length ≤ 1 := by
  unfold accumulate; split <;> [skip; split <;> [skip; split]] <;> simp

theorem accumulate_derr (v : SymbolIndex) (d : DecoderUnit) : (accumulate v d).1.derr = d.derr := by
  unfold accumulate; split <;> [skip; split <;> [skip; split]] <;> rfl

theorem accumulate_phase (v : SymbolIndex) (d : DecoderUnit) : (accumulate v d).1.phase = d.phase + 1#2 := by
  have h : d.phase = 0#2 ∨ d.phase = 1#2 ∨ d.phase = 2#2 ∨ d.phase = 3#2 := by
    generalize d.phase = p; revert p; decide
  rcases h with h | h | h | h <;> simp [accumulate, h]

end Sys2Proof.Machine
end

