-- ==== Sys2Proof/Laws/PerInstr.lean ====
section
/-! SUPPORT. Laws of the instructions as syntax, one lemma per constructor: the command word of an instruction is a word of its row of
30_encoding.md R75, on the unit of that row. -/

namespace Sys2Proof.Laws

open Sys2Proof Sys2Proof.Machine

/-- The column `match` of 30_encoding.md R75. -/
def rowMatch : Instr → Word
  | .encInit _ => 0x00000000#32
  | .encByte _ => 0x10000000#32
  | .encFlush => 0x20000000#32
  | .encRdstat => 0x30000000#32
  | .encRdcfg => 0x40000000#32
  | .encRdpend => 0x50000000#32
  | .decInit => 0x80000000#32
  | .decChar _ => 0x90000000#32
  | .decRdstat => 0xB0000000#32

/-- The column `mask` of 30_encoding.md R75. -/
def rowMask : Instr → Word
  | .encInit _ => 0xFFFF0000#32
  | .encByte _ => 0xFFFFFF00#32
  | .encFlush => 0xFFFFFFFF#32
  | .encRdstat => 0xFFFFFFFF#32
  | .encRdcfg => 0xFFFFFFFF#32
  | .encRdpend => 0xFFFFFFFF#32
  | .decInit => 0xFFFFFFFF#32
  | .decChar _ => 0xFFFF0000#32
  | .decRdstat => 0xFFFFFFFF#32

/-- The word of an instruction matches its row, and its `U` bit selects the row's unit. -/
def MatchesRow.Statement (i : Instr) : Prop := encode i &&& rowMask i = rowMatch i ∧ unitOf (encode i) = i.unit

/-- A 16-bit operand touches no bit of the row's match. -/
theorem operand16_mask (x : BitVec 16) (m : Word) (hm : m &&& 0xFFFF0000#32 = m) :
    (m ||| x.setWidth 32) &&& 0xFFFF0000#32 = m := by
  have h0 : x.setWidth 32 &&& 0xFFFF0000#32 = 0#32 := by
    ext j hj
    by_cases h : j < 16
    · have : (0xFFFF0000#32).getLsbD j = false := by interval_cases j <;> rfl
      simp [← BitVec.getLsbD_eq_getElem, this]
    · simp [BitVec.getElem_and, BitVec.getElem_setWidth, BitVec.getLsbD_of_ge x j (by omega)]
  rw [BitVec.and_comm, BitVec.and_or_distrib_left, BitVec.and_comm, hm, BitVec.and_comm, h0, BitVec.or_zero]

/-- An 8-bit operand touches no bit of the row's match. -/
theorem operand8_mask (x : BitVec 8) (m : Word) (hm : m &&& 0xFFFFFF00#32 = m) :
    (m ||| x.setWidth 32) &&& 0xFFFFFF00#32 = m := by
  have h0 : x.setWidth 32 &&& 0xFFFFFF00#32 = 0#32 := by
    ext j hj
    by_cases h : j < 8
    · have : (0xFFFFFF00#32).getLsbD j = false := by interval_cases j <;> rfl
      simp [← BitVec.getLsbD_eq_getElem, this]
    · simp [BitVec.getElem_and, BitVec.getElem_setWidth, BitVec.getLsbD_of_ge x j (by omega)]
  rw [BitVec.and_comm, BitVec.and_or_distrib_left, BitVec.and_comm, hm, BitVec.and_comm, h0, BitVec.or_zero]

/-- An operand leaves bit 31 as the match has it. -/
theorem operand_unit {n : Nat} (hn : n ≤ 16) (x : BitVec n) (m : Word) : unitOf (m ||| x.setWidth 32) = unitOf m := by
  have : fieldU (m ||| x.setWidth 32) = fieldU m := by
    ext j hj
    have h0 : j = 0 := by omega
    subst h0
    simp [fieldU, BitVec.getLsbD_of_ge x 31 (by omega)]
  simp only [unitOf, this]

theorem MatchesRow.encInit (ll : BitVec 16) : MatchesRow.Statement (.encInit ll) :=
  ⟨operand16_mask ll _ (by decide), operand_unit (by decide) ll _⟩
theorem MatchesRow.encByte (b : Octet) : MatchesRow.Statement (.encByte b) :=
  ⟨operand8_mask b _ (by decide), operand_unit (by decide) b _⟩
theorem MatchesRow.encFlush : MatchesRow.Statement .encFlush := ⟨by decide, by decide⟩
theorem MatchesRow.encRdstat : MatchesRow.Statement .encRdstat := ⟨by decide, by decide⟩
theorem MatchesRow.encRdcfg : MatchesRow.Statement .encRdcfg := ⟨by decide, by decide⟩
theorem MatchesRow.encRdpend : MatchesRow.Statement .encRdpend := ⟨by decide, by decide⟩
theorem MatchesRow.decInit : MatchesRow.Statement .decInit := ⟨by decide, by decide⟩
theorem MatchesRow.decChar (c : CodeUnit) : MatchesRow.Statement (.decChar c) :=
  ⟨operand16_mask c _ (by decide), operand_unit (by decide) c _⟩
theorem MatchesRow.decRdstat : MatchesRow.Statement .decRdstat := ⟨by decide, by decide⟩

end Sys2Proof.Laws
end

