-- ==== Sys2Proof/Laws/Step.lean ====
section
/-! SUPPORT. What a meaning, a host input, a step and a run can do, each said once. -/

namespace Sys2Proof.Machine

open Host

/-! ### Outcomes -/

/-- An outcome with its next state changed. -/
def onNext (f : State → State) : Outcome State Fault Refusal → Outcome State Fault Refusal
  | .next t => .next (f t)
  | .fault r => .fault r
  | .refused r => .refused r

/-- An outcome followed by more steps. -/
def andThen (x : Outcome State Fault Refusal) (f : State → Outcome State Fault Refusal) : Outcome State Fault Refusal :=
  match x with
  | .next t => f t
  | .fault r => .fault r
  | .refused r => .refused r

@[simp] theorem onNext_next (f : State → State) (t : State) : onNext f (.next t) = .next (f t) := rfl
@[simp] theorem onNext_fault (f : State → State) (r : Fault) : onNext f (.fault r) = .fault r := rfl
@[simp] theorem onNext_refused (f : State → State) (r : Refusal) : onNext f (.refused r) = .refused r := rfl
@[simp] theorem andThen_next (t : State) (f : State → Outcome State Fault Refusal) : andThen (.next t) f = f t := rfl
@[simp] theorem andThen_fault (r : Fault) (f : State → Outcome State Fault Refusal) : andThen (.fault r) f = .fault r := rfl
@[simp] theorem andThen_refused (r : Refusal) (f : State → Outcome State Fault Refusal) :
    andThen (.refused r) f = .refused r := rfl

/-! ### The parts of a meaning -/

/-- `ENC.BYTE` of a stream that is not flushed, as a function of the unit. -/
def byteUnit (lb b : Octet) (e : EncoderUnit) : EncoderUnit × List Octet :=
  if e.pcnt = 2#2 then (clearPending (group lb e.pb0 e.pb1 b 4 e).1, (group lb e.pb0 e.pb1 b 4 e).2)
  else (push b e, [])

/-- `DEC.CHAR`, as a function of the unit. -/
def charUnit (c : CodeUnit) (d : DecoderUnit) : DecoderUnit × List Octet :=
  match rev c with
  | none => (d, [])
  | some v => accumulate v d

theorem encByteWith_eq (lb b : Octet) (s : State) (hf : s.enc.flushed = false) (hp : s.enc.pcnt ≠ 3#2) :
    encByteWith lb b s = .next (respond .encoder (successRecord (byteUnit lb b s.enc).2 0#32)
      (withEnc (byteUnit lb b s.enc).1 s)) := by
  by_cases h : s.enc.pcnt = 2#2 <;> simp [encByteWith, byteUnit, hf, h, hp]

theorem encFlushWith_eq (lb : Octet) (s : State) (hf : s.enc.flushed = false) (hp : s.enc.pcnt ≠ 3#2) :
    encFlushWith lb s = .next (respond .encoder (successRecord (flushGroup lb s.enc).2 0#32)
      (withEnc { clearPending (flushGroup lb s.enc).1 with flushed := true } s)) := by
  simp [encFlushWith, hf, hp]

theorem execDecChar_eq (c : CodeUnit) (s : State) :
    execDecChar c s = .next (respond .decoder (successRecord (charUnit c s.dec).2 0#32)
      (withDec (charUnit c s.dec).1 s)) := by
  cases h : rev c <;> simp [execDecChar, charUnit, h]; rfl

/-- What a meaning can do when it completes: one response of the instruction's unit, and that unit's elements. -/
theorem exec_cases {i : Instr} {s t : State} (h : exec i s = .next t) :
    (i.unit = .encoder ∧ ∃ e r, t = respond .encoder r (withEnc e s))
      ∨ (i.unit = .decoder ∧ ∃ d r, t = respond .decoder r (withDec d s)) := by
  cases i with
  | encInit ll => cases h; exact .inl ⟨rfl, _, _, rfl⟩
  | encByte b =>
    refine .inl ⟨rfl, ?_⟩
    simp only [exec, execEncByte, encByteWith] at h
    split at h
    · cases h; exact ⟨_, _, rfl⟩
    · split at h
      · cases h
      · split at h <;> cases h <;> exact ⟨_, _, rfl⟩
  | encFlush =>
    refine .inl ⟨rfl, ?_⟩
    simp only [exec, execEncFlush, encFlushWith] at h
    split at h
    · cases h; exact ⟨_, _, rfl⟩
    · split at h <;> cases h; exact ⟨_, _, rfl⟩
  | encRdstat =>
    simp only [exec, execEncRdstat] at h
    split at h <;> cases h; exact .inl ⟨rfl, s.enc, _, rfl⟩
  | encRdcfg => cases h; exact .inl ⟨rfl, s.enc, _, rfl⟩
  | encRdpend =>
    simp only [exec, execEncRdpend] at h
    split at h <;> cases h; exact .inl ⟨rfl, s.enc, _, rfl⟩
  | decInit => cases h; exact .inr ⟨rfl, _, _, rfl⟩
  | decChar c => simp only [exec, execDecChar_eq] at h; cases h; exact .inr ⟨rfl, _, _, rfl⟩
  | decRdstat => cases h; exact .inr ⟨rfl, s.dec, _, rfl⟩

/-! ### The host's side of the port -/

/-- A meaning neither reads nor writes what the host has left to do. -/
theorem exec_withInputs (i : Instr) (s : State) (l : List HostInput) :
    exec i { s with inputs := l } = onNext (fun t => { t with inputs := l }) (exec i s) := by
  cases i with
  | encInit ll => rfl
  | encByte b =>
    simp only [exec, execEncByte, encByteWith]
    split <;> [rfl; (split <;> [rfl; (split <;> rfl)])]
  | encFlush =>
    simp only [exec, execEncFlush, encFlushWith]
    split <;> [rfl; (split <;> rfl)]
  | encRdstat => simp only [exec, execEncRdstat]; split <;> rfl
  | encRdcfg => rfl
  | encRdpend => simp only [exec, execEncRdpend]; split <;> rfl
  | decInit => rfl
  | decChar c => simp only [exec, execDecChar_eq]; rfl
  | decRdstat => rfl

/-- A command word neither reads nor writes what the host has left to do. -/
theorem performWord_withInputs (w : Word) (s : State) (l : List HostInput) :
    performWord w { s with inputs := l } = onNext (fun t => { t with inputs := l }) (performWord w s) := by
  unfold performWord
  split
  · exact exec_withInputs _ _ _
  · rename_i u e _; cases u <;> rfl

theorem performWord_instr {w : Word} {i : Instr} (h : decode w = .instr i) (s : State) : performWord w s = exec i s := by
  simp [performWord, h]

theorem performWord_usageError {w : Word} {u : CodecUnit} {e : UsageError} (h : decode w = .usageError u e) (s : State) :
    performWord w s = .next (raiseUsageError u e s) := by
  simp [performWord, h]

/-- A step takes the host's oldest input. -/
theorem step_cons {s : State} {x : HostInput} {rest : List HostInput} (h : s.inputs = x :: rest) :
    step s = performInput x { s with inputs := rest } := by
  simp [step, takeInput, h]

theorem step_nil {s : State} (h : s.inputs = []) : step s = .next s := by
  simp [step, takeInput, h]

/-! ### Each unit alone -/

theorem withEnc_self {s : State} {e : EncoderUnit} (h : s.enc = e) : withEnc e s = s := by subst h; rfl

theorem withDec_self {s : State} {d : DecoderUnit} (h : s.dec = d) : withDec d s = s := by subst h; rfl

/-- What an encoder instruction does is settled by the encoder unit: in every state with these elements it completes with the same
unit and the same record, or it stops with the same fault. -/
theorem exec_encoder_local {i : Instr} (h : i.unit = .encoder) (e : EncoderUnit) :
    (∃ e' r, ∀ s : State, s.enc = e → exec i s = .next (respond .encoder r (withEnc e' s)))
      ∨ (e.pcnt = 3#2 ∧ ∃ f, ∀ s : State, s.enc = e → exec i s = .fault f) := by
  have hb : ∀ {x : Bool}, ¬x = true → x = false := by simp
  cases i with
  | encInit ll => exact .inl ⟨_, _, fun s hs => by simp only [exec, execEncInit, hs]; rfl⟩
  | encByte b =>
    by_cases hf : e.flushed = true
    · exact .inl ⟨_, _, fun s hs => by
        simp only [exec, execEncByte, encByteWith, raiseUsageError, recordError, hs, hf, if_true]; rfl⟩
    · by_cases hp : e.pcnt = 3#2
      · exact .inr ⟨hp, .pendingCountThree, fun s hs => by simp [exec, execEncByte, encByteWith, hs, hf, hp]⟩
      · exact .inl ⟨_, _, fun s hs => by
          simp only [exec, execEncByte]; rw [encByteWith_eq lbChar b s (hs ▸ hb hf) (hs ▸ hp), hs]⟩
  | encFlush =>
    by_cases hf : e.flushed = true
    · exact .inl ⟨_, _, fun s hs => by
        simp only [exec, execEncFlush, encFlushWith, raiseUsageError, recordError, hs, hf, if_true]; rfl⟩
    · by_cases hp : e.pcnt = 3#2
      · exact .inr ⟨hp, .pendingCountThree, fun s hs => by simp [exec, execEncFlush, encFlushWith, hs, hf, hp]⟩
      · exact .inl ⟨_, _, fun s hs => by
          simp only [exec, execEncFlush]; rw [encFlushWith_eq lbChar s (hs ▸ hb hf) (hs ▸ hp), hs]⟩
  | encRdstat =>
    by_cases hp : e.pcnt = 3#2
    · exact .inr ⟨hp, .pendingCountThree, fun s hs => by simp [exec, execEncRdstat, hs, hp]⟩
    · exact .inl ⟨e, _, fun s hs => by rw [withEnc_self hs]; simp only [exec, execEncRdstat, hs, hp, if_false]; rfl⟩
  | encRdcfg => exact .inl ⟨e, _, fun s hs => by
      rw [withEnc_self hs]; simp only [exec, execEncRdcfg, encRdcfgWith, hs]; rfl⟩
  | encRdpend =>
    by_cases hp : e.pcnt = 3#2
    · exact .inr ⟨hp, .pendingCountThree, fun s hs => by simp [exec, execEncRdpend, hs, hp]⟩
    · exact .inl ⟨e, _, fun s hs => by rw [withEnc_self hs]; simp only [exec, execEncRdpend, hs, hp, if_false]; rfl⟩
  | decInit => cases h
  | decChar c => cases h
  | decRdstat => cases h

/-- What a decoder instruction does is settled by the decoder unit, and it completes. -/
theorem exec_decoder_local {i : Instr} (h : i.unit = .decoder) (d : DecoderUnit) :
    ∃ d' r, ∀ s : State, s.dec = d → exec i s = .next (respond .decoder r (withDec d' s)) := by
  cases i with
  | decInit => exact ⟨_, _, fun s hs => by simp only [exec, execDecInit]; rfl⟩
  | decChar c => exact ⟨_, _, fun s hs => by simp only [exec, execDecChar_eq, hs]; rfl⟩
  | decRdstat => exact ⟨d, _, fun s hs => by rw [withDec_self hs]; simp only [exec, execDecRdstat, hs]; rfl⟩
  | encInit ll => cases h
  | encByte b => cases h
  | encFlush => cases h
  | encRdstat => cases h
  | encRdcfg => cases h
  | encRdpend => cases h

/-- The unit of a decoded instruction, or of a usage error, is the one bit 31 of the word selects. -/
theorem decode_unit (w : Word) :
    (∀ i, decode w = .instr i → i.unit = unitOf w) ∧ ∀ u e, decode w = .usageError u e → u = unitOf w := by
  constructor
  · intro i h
    simp only [decode] at h
    split at h <;> [cases h; split at h <;> [cases h; split at h <;> [cases h; skip]]]
    simp only [dispatchRow] at h
    split at h <;> simp_all <;> (subst h; rfl)
  · intro u e h
    simp only [decode] at h
    split at h <;> [(cases h; rfl); split at h <;> [(cases h; rfl); split at h <;> [(cases h; rfl); skip]]]
    simp only [dispatchRow] at h
    split at h <;> simp_all

/-- An encoder word, legal or not, does what the encoder unit settles. -/
theorem performWord_encoder_local {w : Word} (h : unitOf w = .encoder) (e : EncoderUnit) :
    (∃ e' r, ∀ s : State, s.enc = e → performWord w s = .next (respond .encoder r (withEnc e' s)))
      ∨ (e.pcnt = 3#2 ∧ ∃ f, ∀ s : State, s.enc = e → performWord w s = .fault f) := by
  cases hd : decode w with
  | instr i =>
    simp only [performWord_instr hd]
    exact exec_encoder_local (((decode_unit w).1 i hd).trans h) e
  | usageError u x =>
    have hu := ((decode_unit w).2 u x hd).trans h
    subst hu
    exact .inl ⟨_, _, fun s hs => by
      rw [performWord_usageError hd]; simp only [raiseUsageError, recordError, hs]; rfl⟩

/-- A decoder word, legal or not, does what the decoder unit settles. -/
theorem performWord_decoder_local {w : Word} (h : unitOf w = .decoder) (d : DecoderUnit) :
    ∃ d' r, ∀ s : State, s.dec = d → performWord w s = .next (respond .decoder r (withDec d' s)) := by
  cases hd : decode w with
  | instr i =>
    simp only [performWord_instr hd]
    exact exec_decoder_local (((decode_unit w).1 i hd).trans h) d
  | usageError u x =>
    have hu := ((decode_unit w).2 u x hd).trans h
    subst hu
    exact ⟨_, _, fun s hs => by
      rw [performWord_usageError hd]; simp only [raiseUsageError, recordError, hs]; rfl⟩

/-! ### Runs -/

@[simp] theorem issue_nil (s : State) : issue [] s = .next (s.withCommands []) := rfl

/-- Issuing commands: the first is performed, then the rest. -/
theorem issue_cons (w : Word) (ws : List Word) (s : State) :
    issue (w :: ws) s = andThen (performWord w s) (issue ws) := by
  have hstep : Sys2Proof.core.step (s.withCommands (w :: ws))
      = onNext (fun t => { t with inputs := ws.map HostInput.command }) (performWord w s) :=
    (step_cons (s := s.withCommands (w :: ws)) (rest := ws.map HostInput.command) rfl).trans
      (performWord_withInputs w s _)
  simp only [issue, List.length_cons, Core.run]
  rw [hstep]
  cases performWord w s <;> rfl

/-- The host's side of the port at the start does not matter to a run of commands. -/
theorem issue_withInputs (ws : List Word) (s : State) (l : List HostInput) : issue ws { s with inputs := l } = issue ws s := rfl

end Sys2Proof.Machine
end

