-- ==== Sys2Proof/Machine/Assembler.lean ====
section
/-! DEFINITION. The text of a source line (30_encoding.md R85, R86): numbers, characters, comments, the mnemonics and the
pseudo-instructions. What R85 does not say of the text (blanks, escapes inside a text in quotes) is log entry 9. -/

namespace Sys2Proof.Machine

/-- The two quotation marks. -/
def singleQuote : Char := Char.ofNat 39
def doubleQuote : Char := Char.ofNat 34

/-- A blank or a tab. -/
def isBlank (c : Char) : Bool := c.toNat == 32 || c.toNat == 9

/-- The rest of a line says nothing more: it is blank up to its end or to a comment (R85). -/
def lineEnds (cs : List Char) : Bool :=
  match cs.dropWhile isBlank with
  | [] => true
  | c :: _ => c == ';'

/-- The value of a digit in base 10 or 16. -/
def digitValue (base : Nat) (c : Char) : Option Nat :=
  if '0' ≤ c ∧ c ≤ '9' then some (c.toNat - 48)
  else if base = 16 ∧ 'a' ≤ c ∧ c ≤ 'f' then some (c.toNat - 97 + 10)
  else if base = 16 ∧ 'A' ≤ c ∧ c ≤ 'F' then some (c.toNat - 65 + 10)
  else none

/-- A run of digits after the value `acc`, and the text after it. -/
def readDigits (base acc : Nat) : List Char → Nat × List Char
  | [] => (acc, [])
  | c :: cs =>
      match digitValue base c with
      | some d => readDigits base (base * acc + d) cs
      | none => (acc, c :: cs)

/-- A number of at least one digit. -/
def readNumeral (base : Nat) (cs : List Char) : Option (Nat × List Char) :=
  match cs with
  | [] => none
  | c :: _ => if (digitValue base c).isSome then some (readDigits base 0 cs) else none

/-- The escapes of R85: the codes 0x0D, 0x0A and 0x09. -/
def escapeCode (c : Char) : Option Nat :=
  if c = 'r' then some 0x0D else if c = 'n' then some 0x0A else if c = 't' then some 0x09 else none

/-- The text after an opening single quote: one ASCII character or an escape, then the closing quote (R85). -/
def readCharacter (cs : List Char) : Option (Nat × List Char) :=
  match cs with
  | a :: b :: rest =>
      if b = singleQuote then if a.toNat < 128 then some (a.toNat, rest) else none
      else if a = '\\' then
        match escapeCode b, rest with
        | some x, q :: rest' => if q = singleQuote then some (x, rest') else none
        | some _, [] => none
        | none, _ => none
      else none
  | [_] => none
  | [] => none

/-- An operand: decimal, hex with `0x`, or a character (R85). -/
def readOperand (cs : List Char) : Option (Nat × List Char) :=
  match cs with
  | '0' :: 'x' :: rest => readNumeral 16 rest
  | c :: rest => if c = singleQuote then readCharacter rest else readNumeral 10 cs
  | [] => none

/-- The items of a list after its opening bracket, up to the closing one; `fuel` bounds how many there are. -/
def readItems : Nat → List Char → Option (List Nat × List Char)
  | 0, _ => none
  | fuel + 1, cs =>
      match readOperand (cs.dropWhile isBlank) with
      | none => none
      | some (n, rest) =>
          match rest.dropWhile isBlank with
          | ',' :: rest' => (readItems fuel rest').map fun p => (n :: p.1, p.2)
          | ']' :: rest' => some ([n], rest')
          | _ => none

/-- A list `[b0, b1, ...]`, perhaps empty (R86). -/
def readList (cs : List Char) : Option (List Nat × List Char) :=
  match cs with
  | '[' :: rest =>
      match rest.dropWhile isBlank with
      | ']' :: rest' => some ([], rest')
      | _ => readItems cs.length rest
  | _ => none

/-- The characters of a text after its opening double quote, up to the closing one. -/
def readTextBody : List Char → Option (List Char × List Char)
  | [] => none
  | [c] => if c = doubleQuote then some ([], []) else none
  | c :: d :: cs =>
      if c = doubleQuote then some ([], d :: cs)
      else if c = '\\' then
        match escapeCode d with
        | some x => (readTextBody cs).map fun p => (Char.ofNat x :: p.1, p.2)
        | none => none
      else (readTextBody (d :: cs)).map fun p => (c :: p.1, p.2)

/-- A text in double quotes. -/
def readText (cs : List Char) : Option (List Char × List Char) :=
  match cs with
  | c :: rest => if c = doubleQuote then readTextBody rest else none
  | [] => none

/-- `x` where nothing but a comment follows it. -/
def endOf {α : Type} (x : Option (α × List Char)) : Option α :=
  match x with
  | some (v, rest) => if lineEnds rest then some v else none
  | none => none

/-- The codes of an ASCII text; another character has none, which is an assembly error (R86). -/
def asciiCodes (cs : List Char) : Option (List Nat) :=
  if cs.all fun c => decide (c.toNat < 128) then some (cs.map Char.toNat) else none

/-- The source line of a mnemonic or a pseudo-instruction with the text after it (R85, R86). -/
def readLine (mnemonic : List Char) (rest : List Char) : Option SourceLine :=
  if mnemonic = "enc.init".toList then (endOf (readOperand rest)).map .encInit
  else if mnemonic = "enc.byte".toList then (endOf (readOperand rest)).map .encByte
  else if mnemonic = "enc.flush".toList then if lineEnds rest then some .encFlush else none
  else if mnemonic = "enc.rdstat".toList then if lineEnds rest then some .encRdstat else none
  else if mnemonic = "enc.rdcfg".toList then if lineEnds rest then some .encRdcfg else none
  else if mnemonic = "enc.rdpend".toList then if lineEnds rest then some .encRdpend else none
  else if mnemonic = "dec.init".toList then if lineEnds rest then some .decInit else none
  else if mnemonic = "dec.char".toList then (endOf (readOperand rest)).map .decChar
  else if mnemonic = "dec.rdstat".toList then if lineEnds rest then some .decRdstat else none
  else if mnemonic = ".word".toList then (endOf (readOperand rest)).map .word
  else if mnemonic = "enc.write".toList then
    match endOf (readText rest) with
    | some t => (asciiCodes t).map .encWrite
    | none => (endOf (readList rest)).map .encWrite
  else if mnemonic = "enc.encode".toList then (endOf (readList rest)).map .encEncode
  else if mnemonic = "dec.write".toList then (endOf (readText rest)).map fun t => .decWrite (textCodeUnits t)
  else none

/-- The command words of one line of source text: none of a blank line or a comment alone, no result for an assembly error. -/
def assembleLine (line : List Char) : Option (List Word) :=
  if lineEnds line then some []
  else
    match readLine ((line.dropWhile isBlank).takeWhile fun c => !isBlank c && c != ';')
        (((line.dropWhile isBlank).dropWhile fun c => !isBlank c && c != ';').dropWhile isBlank) with
    | some l => assemble l
    | none => none

/-- The command words of a program, line by line. -/
def assembleProgram : List (List Char) → Option (List Word)
  | [] => some []
  | line :: lines =>
      match assembleLine line, assembleProgram lines with
      | some ws, some rest => some (ws ++ rest)
      | some _, none => none
      | none, _ => none

end Sys2Proof.Machine
end

