-- ==== Sys2Proof/Tests/Slice0.lean ====
section
/-! SUPPORT. Tests: expected values come from 95_test_vectors.md and from the tables of 30_encoding.md, and the witnesses of the statements
in Certificates/Slice0/Obligations.lean: states and operands that meet a statement's hypotheses together. -/

namespace Sys2Proof.Tests

open Sys2Proof Sys2Proof.Machine Host

/-! ### Helpers -/

/-- The reset state with this encoder unit. -/
def withE (e : EncoderUnit) : State := { State.reset with enc := e }

/-- The reset state with this decoder unit. -/
def withD (d : DecoderUnit) : State := { State.reset with dec := d }

/-- The reset state with these host inputs. -/
def holding (xs : List HostInput) : State := { State.reset with inputs := xs }

/-- The encoder unit, the decoder unit and the last record after an outcome. -/
def encOf (x : Outcome State Fault Refusal) : Option EncoderUnit :=
  match x with
  | .next t => some t.enc
  | .fault _ => none
  | .refused _ => none

def decOf (x : Outcome State Fault Refusal) : Option DecoderUnit :=
  match x with
  | .next t => some t.dec
  | .fault _ => none
  | .refused _ => none

def recordOf (x : Outcome State Fault Refusal) : Option Record :=
  match x with
  | .next t => t.responses.getLast?.map Response.record
  | .fault _ => none
  | .refused _ => none

def faultOf (x : Outcome State Fault Refusal) : Option Fault :=
  match x with
  | .next _ => none
  | .fault r => some r
  | .refused _ => none

/-- An encoder unit by its elements, in the order of 10_state.md. -/
def encUnit (ll : BitVec 16) (pcnt : BitVec 2) (pb0 pb1 : Octet) (col : BitVec 17) (flushed : Bool) (eerr : BitVec 3) : EncoderUnit :=
  { ll := ll, pcnt := pcnt, pb0 := pb0, pb1 := pb1, col := col, flushed := flushed, eerr := eerr }

/-! ### WellFormed: each check refuses an ill-formed line (30_encoding.md R85) -/

theorem test_wf_encInit : (SourceLine.encInit 65536).wellFormed = false ∧ (SourceLine.encInit 65535).wellFormed = true := by decide
theorem test_wf_encByte : (SourceLine.encByte 256).wellFormed = false ∧ (SourceLine.encByte 255).wellFormed = true := by decide
theorem test_wf_decChar : (SourceLine.decChar 0x10000).wellFormed = false ∧ (SourceLine.decChar 0xFFFF).wellFormed = true := by decide
theorem test_wf_word : (SourceLine.word (2 ^ 32)).wellFormed = false ∧ (SourceLine.word (2 ^ 32 - 1)).wellFormed = true := by decide
theorem test_wf_encWrite : (SourceLine.encWrite [0, 256]).wellFormed = false ∧ (SourceLine.encWrite []).wellFormed = true := by decide
theorem test_wf_encEncode : (SourceLine.encEncode [256]).wellFormed = false := by decide
theorem test_wf_decWrite : (SourceLine.decWrite [0x10000]).wellFormed = false := by decide
theorem test_assemble_refuses : assemble (.encByte 256) = none ∧ assemble (.encWrite [1, 300]) = none := by decide
theorem test_assemble_encode :
    assemble (.encEncode [104, 101]) = some [0x10000068#32, 0x10000065#32, 0x20000000#32] := by decide
theorem test_assemble_decWrite : assemble (.decWrite [0x62, 0xFFFF]) = some [0x90000062#32, 0x9000FFFF#32] := by decide
theorem test_text_surrogates : textCodeUnits ['a', Char.ofNat 0x1F600] = [0x61, 0xD83D, 0xDE00] := by decide

/-! ### Source text (30_encoding.md R85, R86; words of 95_test_vectors.md L3) -/

theorem test_text_numbers :
    assembleLine "enc.init 76 ; a line length".toList = some [0x0000004C#32] ∧ assembleLine "enc.byte 0x6C".toList = some [0x1000006C#32]
      ∧ assembleLine "enc.byte 256".toList = none ∧ assembleLine "enc.flush 1".toList = none
      ∧ assembleLine ".word 0x10000161".toList = some [0x10000161#32] ∧ assembleLine "; nothing".toList = some [] := by decide

theorem test_text_characters :
    assembleLine "dec.char 'G'".toList = some [0x90000047#32] ∧ assembleLine "dec.char '\\r'".toList = some [0x9000000D#32]
      ∧ assembleLine "dec.char ';'".toList = some [0x9000003B#32] := by decide

theorem test_text_lists :
    assembleLine "enc.encode [104, 0x65]".toList = some [0x10000068#32, 0x10000065#32, 0x20000000#32]
      ∧ assembleLine "enc.write []".toList = some [] ∧ assembleLine "enc.write [1, 300]".toList = none
      ∧ assembleLine "enc.write \"he\"".toList = some [0x10000068#32, 0x10000065#32]
      ∧ assembleLine "dec.write \"l\\n=\"".toList = some [0x9000006C#32, 0x9000000A#32, 0x9000003D#32] := by decide

/-! ### Decoding: a word of each row by its fields U, OP, RSV, OPND (30_encoding.md R70, R75) -/

theorem test_decode_encInit : decode (0b0#1 ++ 0b000#3 ++ 0#12 ++ 0xA55A#16) = .instr (.encInit 0xA55A#16) := by decide
theorem test_decode_encByte : decode (0b0#1 ++ 0b001#3 ++ 0#12 ++ 0x00C3#16) = .instr (.encByte 0xC3#8) := by decide
theorem test_decode_encFlush : decode (0b0#1 ++ 0b010#3 ++ 0#12 ++ 0x0000#16) = .instr .encFlush := by decide
theorem test_decode_encRdstat : decode (0b0#1 ++ 0b011#3 ++ 0#12 ++ 0x0000#16) = .instr .encRdstat := by decide
theorem test_decode_encRdcfg : decode (0b0#1 ++ 0b100#3 ++ 0#12 ++ 0x0000#16) = .instr .encRdcfg := by decide
theorem test_decode_encRdpend : decode (0b0#1 ++ 0b101#3 ++ 0#12 ++ 0x0000#16) = .instr .encRdpend := by decide
theorem test_decode_decInit : decode (0b1#1 ++ 0b000#3 ++ 0#12 ++ 0x0000#16) = .instr .decInit := by decide
theorem test_decode_decChar : decode (0b1#1 ++ 0b001#3 ++ 0#12 ++ 0x8141#16) = .instr (.decChar 0x8141#16) := by decide
theorem test_decode_decRdstat : decode (0b1#1 ++ 0b011#3 ++ 0#12 ++ 0x0000#16) = .instr .decRdstat := by decide

/-- Reserved opcodes (R76), first whatever the other bits are. -/
theorem test_decode_reserved :
    [0x60000000#32, 0x7FFFFFFF#32, 0xA0000000#32, 0xC0000001#32, 0xD0000000#32, 0xE0000000#32, 0xF0000000#32].map decode
      = [.usageError .encoder .rsvdOp, .usageError .encoder .rsvdOp, .usageError .decoder .rsvdOp, .usageError .decoder .rsvdOp,
         .usageError .decoder .rsvdOp, .usageError .decoder .rsvdOp, .usageError .decoder .rsvdOp] := by decide

/-- Must-be-0 bits (R73, R74): the lowest and the highest of each field. -/
theorem test_decode_fields :
    [0x00010000#32, 0x08000000#32, 0x10000100#32, 0x10008000#32, 0x20000001#32, 0x30008000#32, 0x40000001#32, 0x50000001#32].map decode
        = List.replicate 8 (.usageError .encoder .rsvdField)
      ∧ [0x80000001#32, 0x88000000#32, 0x90010000#32, 0xB0008000#32].map decode
        = List.replicate 4 (.usageError .decoder .rsvdField) := by decide

theorem test_table_word : decodeTableWord 32 0x1000006C = some (.encByte 0x6C#8) ∧ decodeTableWord 32 0x60000000 = none := by decide

theorem test_fetch_word : encOf (step (State.reset.withFetchWord 32 0x0000004C)) = some (encUnit 76 0 0 0 0 false 0) := by decide

/-! ### One step of each instruction (95_test_vectors.md L2.3, L2.4, and the examples of 40_encoder.md and 41_decoder.md) -/

/-- L2.4: ENC.INIT drops the pending bytes. -/
theorem test_encInit : encOf (exec (.encInit 9#16) (withE (encUnit 4 2 1 2 8 true 3))) = some (encUnit 9 0 0 0 0 false 0) := by decide

/-- L2.3: the second byte. -/
theorem test_encByte_push : encOf (exec (.encByte 0#8) (withE (encUnit 0 1 0xFF 0 0 false 0)))
    = some (encUnit 0 2 0xFF 0 0 false 0) := by decide

/-- L2.3: `TWFu`. -/
theorem test_encByte_group : recordOf (exec (.encByte 0x6E#8) (withE (encUnit 0 2 0x4D 0x61 0 false 0)))
    = some { outLen := 4#3, outData := 0x0075465754#40, rdata := 0#32, fail := false } := by decide

/-- L2.3: a break at COL = LL = 4 with the default octet, none at LL = 5. -/
theorem test_encByte_break :
    recordOf (encByteWith 0x0A#8 0#8 (withE (encUnit 4 2 0 0 4 false 0)))
        = some { outLen := 5#3, outData := 0x414141410A#40, rdata := 0#32, fail := false }
      ∧ encOf (encByteWith 0x0A#8 0#8 (withE (encUnit 4 2 0 0 4 false 0))) = some (encUnit 4 0 0 0 4 false 0) := by decide

theorem test_encByte_no_break :
    recordOf (encByteWith 0x0A#8 0#8 (withE (encUnit 5 2 0 0 4 false 0)))
        = some { outLen := 4#3, outData := 0x0041414141#40, rdata := 0#32, fail := false }
      ∧ encOf (encByteWith 0x0A#8 0#8 (withE (encUnit 5 2 0 0 4 false 0))) = some (encUnit 5 0 0 0 8 false 0) := by decide

/-- L2.4: COL = 131068 wraps to 0 while LL = 0. -/
theorem test_column_wraps : encOf (exec (.encByte 0#8) (withE (encUnit 0 2 0 0 131068 false 0)))
    = some (encUnit 0 0 0 0 0 false 0) := by decide

/-- L2.3: `TQ==`. -/
theorem test_encFlush_one :
    recordOf (exec .encFlush (withE (encUnit 0 1 0x4D 0 0 false 0)))
        = some { outLen := 4#3, outData := 0x003D3D5154#40, rdata := 0#32, fail := false }
      ∧ encOf (exec .encFlush (withE (encUnit 0 1 0x4D 0 0 false 0))) = some (encUnit 0 0 0 0 4 true 0) := by decide

/-- L2.3: `TWE=`. -/
theorem test_encFlush_two : recordOf (exec .encFlush (withE (encUnit 0 2 0x4D 0x61 0 false 0)))
    = some { outLen := 4#3, outData := 0x003D455754#40, rdata := 0#32, fail := false } := by decide

/-- L2.3: the break before the padded group, and none where nothing is pending. -/
theorem test_encFlush_break :
    recordOf (encFlushWith 0x0A#8 (withE (encUnit 4 1 0 0 8 false 0)))
        = some { outLen := 5#3, outData := 0x3D3D41410A#40, rdata := 0#32, fail := false }
      ∧ encOf (exec .encFlush (withE (encUnit 4 0 0 0 8 false 0))) = some (encUnit 4 0 0 0 8 true 0) := by decide

/-- L2.3: use after the flush. -/
theorem test_after_flush :
    encOf (exec (.encByte 0x41#8) (withE (encUnit 0 0 0 0 4 true 0))) = some (encUnit 0 0 0 0 4 true 3)
      ∧ recordOf (exec .encFlush (withE (encUnit 0 0 0 0 4 true 0)))
        = some { outLen := 0#3, outData := 0#40, rdata := 0#32, fail := true } := by decide

/-- L2.3: RSVD_FIELD is checked before AFTER_FLUSH; and the first error is kept. -/
theorem test_error_priority :
    encOf (performWord 0x10000100#32 (withE (encUnit 0 0 0 0 0 true 0))) = some (encUnit 0 0 0 0 0 true 2)
      ∧ encOf (performWord 0x60000000#32 (withE (encUnit 0 0 0 0 0 true 2))) = some (encUnit 0 0 0 0 0 true 2) := by decide

/-- L2.4: after `enc.init 0; enc.write "hello"`. -/
theorem test_encRdstat : recordOf (exec .encRdstat (withE (encUnit 0 2 0x6C 0x6F 4 false 0)))
    = some { outLen := 0#3, outData := 0#40, rdata := 0x00000402#32, fail := false } := by decide

theorem test_encRdstat_flushed : recordOf (exec .encRdstat (withE (encUnit 4 0 0 0 4 true 0)))
    = some { outLen := 0#3, outData := 0#40, rdata := 0x00000404#32, fail := false } := by decide

/-- L2.2 and L2.4: 0x000A004C with the default octet, 0x000D0004 with `LB_CHAR` = 0x0D. -/
theorem test_encRdcfg :
    recordOf (encRdcfgWith 0x0A#8 (withE (encUnit 76 0 0 0 0 false 0)))
        = some { outLen := 0#3, outData := 0#40, rdata := 0x000A004C#32, fail := false }
      ∧ recordOf (encRdcfgWith 0x0D#8 (withE (encUnit 4 0 0 0 4 true 0)))
        = some { outLen := 0#3, outData := 0#40, rdata := 0x000D0004#32, fail := false } := by decide

theorem test_encRdpend : recordOf (exec .encRdpend (withE (encUnit 0 2 0x6C 0x6F 4 false 0)))
    = some { outLen := 0#3, outData := 0#40, rdata := 0x00026F6C#32, fail := false } := by decide

/-- 41_decoder.md R150's example. -/
theorem test_decInit : decOf (exec .decInit (withD { phase := 3, rem := 2, derr := 1 })) = some { phase := 0, rem := 0, derr := 0 } := by
  decide

/-- 41_decoder.md R151's example. -/
theorem test_decChar :
    recordOf (exec (.decChar 0x47#16) (withD { phase := 1, rem := 27, derr := 0 }))
        = some { outLen := 1#3, outData := 108#40, rdata := 0#32, fail := false }
      ∧ decOf (exec (.decChar 0x47#16) (withD { phase := 1, rem := 27, derr := 0 })) = some { phase := 2, rem := 6, derr := 0 } := by
  decide

/-- 41_decoder.md R151: `v` = 63 in phase 3 with `REM` = 3 gives 0xFF; 0x0141 is skipped (20_memory.md R52). -/
theorem test_decChar_corners :
    recordOf (exec (.decChar 0x2F#16) (withD { phase := 3, rem := 3, derr := 0 }))
        = some { outLen := 1#3, outData := 0xFF#40, rdata := 0#32, fail := false }
      ∧ decOf (exec (.decChar 0x0141#16) (withD { phase := 3, rem := 3, derr := 0 })) = some { phase := 3, rem := 3, derr := 0 } := by
  decide

/-- L2.4. -/
theorem test_decRdstat : recordOf (exec .decRdstat (withD { phase := 1, rem := 63, derr := 0 }))
    = some { outLen := 0#3, outData := 0#40, rdata := 0x00003F01#32, fail := false } := by decide

/-- L2.1: the mapper. -/
theorem test_mapper :
    mapper 0x14 0xFB 0x9C = [0x46#8, 0x50#8, 0x75#8, 0x63#8] ∧ mapper 0x03 0xD9 0x7E = [0x41#8, 0x39#8, 0x6C#8, 0x2B#8]
      ∧ mapper 0x00 0x10 0x83 = [0x41#8, 0x42#8, 0x43#8, 0x44#8] := by decide

/-- L2.5: the edges of the ranges of `REV`. -/
theorem test_rev :
    [0x2A#16, 0x2B#16, 0x2C#16, 0x2E#16, 0x2F#16, 0x30#16, 0x39#16, 0x3A#16, 0x3D#16].map rev
        = [none, some 62, none, none, some 63, some 52, some 61, none, none]
      ∧ [0x40#16, 0x41#16, 0x5A#16, 0x5B#16, 0x60#16, 0x61#16, 0x7A#16, 0x7B#16, 0xFF41#16].map rev
        = [none, some 0, some 25, none, none, some 26, some 51, none, none] := by decide

/-- 70_reset_and_hazards.md R190: the reset input. -/
theorem test_reset_input :
    encOf (step { withE (encUnit 4 1 9 0 8 false 2) with inputs := [.reset] }) = some (encUnit 0 0 0 0 0 false 0) := by decide

/-- 92_eei_decisions.md D29. -/
theorem test_pending_three : faultOf (exec .encRdpend (withE (encUnit 0 3 0 0 0 false 0))) = some .pendingCountThree := by decide

/-! ### Witnesses: the hypotheses of each statement are met together

A statement of the form "for every state" with no hypothesis needs none. -/

theorem wit_EncodeOfDecodeIsTheWord : decode 0x9000FFFF#32 = .instr (.decChar 0xFFFF#16) := by decide

/-- Of the last clause, a line; of the others, the two sides of each range. -/
theorem wit_AssemblyMakesOnlyLegalWords :
    ((∀ w, SourceLine.encByte 255 ≠ .word w) ∧ assemble (.encByte 255) = some [0x100000FF#32] ∧ assemble (.encByte 256) = none)
      ∧ assemble (.encInit 65535) = some [0x0000FFFF#32] ∧ assemble (.encInit 65536) = none
      ∧ assemble (.decChar 0xFFFF) = some [0x9000FFFF#32] ∧ assemble (.decChar 0x10000) = none
      ∧ assemble (.encWrite [255, 0]) = some [0x100000FF#32, 0x10000000#32] ∧ assemble (.encWrite [0, 256]) = none
      ∧ assemble (.encEncode []) = some [0x20000000#32] ∧ assemble (.encEncode [256]) = none
      ∧ assemble (.decWrite [0xFFFF]) = some [0x9000FFFF#32] ∧ assemble (.decWrite [0x10000]) = none :=
  ⟨⟨nofun, by decide, by decide⟩, by decide⟩

theorem wit_StepRunsTheDecodedInstruction :
    (holding [.command 0x10000068#32, .reset]).inputs = .command 0x10000068#32 :: [.reset]
      ∧ decode 0x10000068#32 = .instr (.encByte 0x68#8) := by decide

theorem wit_IllegalWordOnlyRecordsItsError :
    (holding [.command 0x60000000#32]).inputs = [.command 0x60000000#32] ∧ decode 0x60000000#32 = .usageError .encoder .rsvdOp
      ∧ decode 0x00010000#32 = .usageError .encoder .rsvdField
      ∧ decode 0xA0000000#32 = .usageError .decoder .rsvdOp ∧ decode 0xB0000001#32 = .usageError .decoder .rsvdField := by decide

theorem wit_StepWithoutInputChangesNothing : State.reset.inputs = [] := rfl

theorem wit_ResetInputGivesResetState : (holding [.reset]).inputs = .reset :: [] := rfl

theorem wit_ResetDuringCommandGivesResetState : (holding [.resetDuring 0x20000000#32]).inputs = .resetDuring 0x20000000#32 :: [] := rfl

theorem wit_CommandsRunInIssueOrder : ∃ t, issue [0x0000004C#32, 0x10000068#32] State.reset = .next t := ⟨_, rfl⟩

/-- A state with pending bytes, a full line and an error meets the invariant, and its step completes. -/
theorem wit_StepKeepsTheInvariant :
    ({ withE (encUnit 5 2 1 2 8 false 2) with dec := { phase := 3, rem := 3, derr := 1 }, inputs := [.command 0x10000068#32] } : State).Inv
      ∧ ∃ t, step { withE (encUnit 5 2 1 2 8 false 2) with
          dec := { phase := 3, rem := 3, derr := 1 }, inputs := [.command 0x10000068#32] } = .next t :=
  ⟨by decide, _, rfl⟩

theorem wit_StepNeverMakesPendingCountThree :
    (withE (encUnit 0 2 1 2 0 false 0)).enc.pcnt.toNat ≤ 2
      ∧ ∃ t, step { withE (encUnit 0 2 1 2 0 false 0) with inputs := [.command 0x10000068#32] } = .next t := ⟨by decide, _, rfl⟩

/-- The ends of the range of `REM` in each phase. -/
theorem wit_StepKeepsRemRangeByPhase :
    RemOk { phase := 0, rem := 0, derr := 0 } ∧ RemOk { phase := 1, rem := 63, derr := 0 }
      ∧ RemOk { phase := 2, rem := 15, derr := 0 } ∧ RemOk { phase := 3, rem := 3, derr := 0 }
      ∧ ∃ t, step { withD { phase := 3, rem := 3, derr := 0 } with inputs := [.command 0x9000002F#32] } = .next t :=
  ⟨by decide, by decide, by decide, by decide, _, rfl⟩

/-- The largest column of LL = 5, of LL = 65535, and without wrapping. -/
theorem wit_StepKeepsColumnBound :
    ColumnOk (encUnit 5 2 1 2 8 false 0) ∧ ColumnOk (encUnit 65535 2 1 2 65536 false 0) ∧ ColumnOk (encUnit 0 2 1 2 131068 false 0)
      ∧ ∃ t, step { withE (encUnit 65535 2 1 2 65536 false 0) with inputs := [.command 0x10000068#32] } = .next t :=
  ⟨by decide, by decide, by decide, _, rfl⟩

theorem wit_EveryStepCompletes : (withE (encUnit 0 2 1 2 0 false 0)).enc.pcnt ≠ 3#2 := by decide

theorem wit_PendingCountThreeFaults :
    (withE (encUnit 0 3 1 2 0 false 0)).enc.pcnt = 3#2 ∧ (withE (encUnit 0 3 1 2 0 false 0)).enc.flushed = false := by decide

/-- Each clause: an instruction that changes the clause's elements. -/
theorem wit_ElementsAreWrittenOnlyByTheirOperations :
    (∃ t, exec (.encInit 9#16) State.reset = .next t ∧ t.enc.ll ≠ State.reset.enc.ll)
      ∧ (∃ t, exec .encFlush State.reset = .next t ∧ t.enc.flushed ≠ State.reset.enc.flushed)
      ∧ (∃ t, exec (.encByte 9#8) State.reset = .next t ∧ t.enc.pcnt ≠ State.reset.enc.pcnt)
      ∧ (∃ t, exec (.encByte 9#8) (withE (encUnit 0 0 0 0 0 true 0)) = .next t ∧ t.enc.eerr ≠ 0#3)
      ∧ (∃ t, exec (.decChar 0x41#16) State.reset = .next t ∧ t.dec.phase ≠ State.reset.dec.phase)
      ∧ ∃ t, exec .decInit (withD { phase := 0, rem := 0, derr := 1 }) = .next t ∧ t.dec.derr ≠ 1#3 :=
  ⟨⟨_, rfl, by decide⟩, ⟨_, rfl, by decide⟩, ⟨_, rfl, by decide⟩, ⟨_, rfl, by decide⟩, ⟨_, rfl, by decide⟩, _, rfl, by decide⟩

theorem wit_UnitsShareNoState :
    ((Instr.encByte 9#8).unit = .encoder ∧ ∃ t, exec (.encByte 9#8) State.reset = .next t)
      ∧ (Instr.decChar 0x41#16).unit = .decoder ∧ ∃ t, exec (.decChar 0x41#16) State.reset = .next t :=
  ⟨⟨rfl, _, rfl⟩, rfl, _, rfl⟩

theorem wit_InterleavingCannotMatter : State.reset.enc.pcnt ≠ 3#2 := by decide

theorem wit_UseAfterFlushOnlyRecordsItsError : (withE (encUnit 0 0 0 0 4 true 0)).enc.flushed = true := rfl

/-- Both clauses of each unit: an input that clears the error and one that does not. -/
theorem wit_FirstErrorIsKeptUntilInitOrReset :
    (withE (encUnit 0 0 0 0 0 false 2)).enc.eerr ≠ 0#3 ∧ (withD { phase := 0, rem := 0, derr := 2 }).dec.derr ≠ 0#3
      ∧ decode 0x00000000#32 = .instr (.encInit 0#16) ∧ decode 0x80000000#32 = .instr .decInit
      ∧ (∃ t, step { withE (encUnit 0 0 0 0 0 false 2) with inputs := [.command 0x00000000#32] } = .next t)
      ∧ (∃ t, step { withE (encUnit 0 0 0 0 0 false 2) with inputs := [.command 0x60000000#32] } = .next t)
      ∧ (∃ t, step { withD { phase := 0, rem := 0, derr := 2 } with inputs := [.command 0x80000000#32] } = .next t)
      ∧ ∃ t, step { withD { phase := 0, rem := 0, derr := 2 } with inputs := [.command 0x90000041#32] } = .next t :=
  ⟨by decide, by decide, by decide, by decide, ⟨_, rfl⟩, ⟨_, rfl⟩, ⟨_, rfl⟩, _, rfl⟩

/-- A word under each clause: 0x7FFFFFFF (also ill-formed), 0x10000100 and 0x20000001, 0x10000041 and 0x20000000; and the step of each
completes from a flushed unit that holds no error. -/
theorem wit_ErrorsAreReportedByPriority :
    (withE (encUnit 0 0 0 0 4 true 0)).enc.eerr = 0#3 ∧ (withE (encUnit 0 0 0 0 4 true 0)).enc.flushed = true
      ∧ (0x7FFFFFFF#32).extractLsb' 28 4 ∈ [6#4, 7#4]
      ∧ (0x10000100#32).extractLsb' 28 4 ∈ [1#4, 2#4] ∧ (0x10000100#32).extractLsb' 8 8 ≠ 0#8
      ∧ (0x20000001#32).extractLsb' 28 4 = 2#4 ∧ (0x20000001#32).extractLsb' 0 8 ≠ 0#8
      ∧ (0x10000041#32).extractLsb' 16 12 = 0#12 ∧ (0x10000041#32).extractLsb' 8 8 = 0#8 ∧ (0x10000041#32).extractLsb' 28 4 = 1#4
      ∧ (∃ t, step { withE (encUnit 0 0 0 0 4 true 0) with inputs := [.command 0x7FFFFFFF#32] } = .next t)
      ∧ (∃ t, step { withE (encUnit 0 0 0 0 4 true 0) with inputs := [.command 0x20000001#32] } = .next t)
      ∧ ∃ t, step { withE (encUnit 0 0 0 0 4 true 0) with inputs := [.command 0x10000041#32] } = .next t :=
  ⟨by decide, by decide, by decide, by decide, by decide, by decide, by decide, by decide, by decide, by decide,
    ⟨_, rfl⟩, ⟨_, rfl⟩, _, rfl⟩

theorem wit_HeldErrorChangesNoLaterCommand : ∃ t, exec (.encByte 9#8) (withE (encUnit 0 0 0 0 0 false 2)) = .next t := ⟨_, rfl⟩

theorem wit_EncByteBuffersUntilTheThird :
    ((withE (encUnit 0 0 0 0 0 false 0)).enc.flushed = false ∧ (withE (encUnit 0 0 0 0 0 false 0)).enc.pcnt = 0#2)
      ∧ (withE (encUnit 0 1 9 0 0 false 0)).enc.flushed = false ∧ (withE (encUnit 0 1 9 0 0 false 0)).enc.pcnt = 1#2 := by decide

/-- A break at COL = LL = 4; none at LL = 5, COL = 4, nor without wrapping. -/
theorem wit_EncByteEmitsTheGroup :
    (withE (encUnit 4 2 1 2 4 false 0)).enc.flushed = false ∧ (withE (encUnit 4 2 1 2 4 false 0)).enc.pcnt = 2#2
      ∧ (withE (encUnit 4 2 1 2 4 false 0)).enc.ll ≠ 0#16
      ∧ (withE (encUnit 4 2 1 2 4 false 0)).enc.ll.toNat ≤ (withE (encUnit 4 2 1 2 4 false 0)).enc.col.toNat
      ∧ ¬(withE (encUnit 5 2 1 2 4 false 0)).enc.ll.toNat ≤ (withE (encUnit 5 2 1 2 4 false 0)).enc.col.toNat
      ∧ (withE (encUnit 0 2 1 2 4 false 0)).enc.ll = 0#16 := by decide

/-- Nothing, one byte and two bytes pending; with and without a break. -/
theorem wit_EncFlushEmitsThePaddedGroup :
    (withE (encUnit 4 0 0 0 4 false 0)).enc.flushed = false ∧ (withE (encUnit 4 0 0 0 4 false 0)).enc.pcnt = 0#2
      ∧ (withE (encUnit 4 1 9 0 4 false 0)).enc.pcnt = 1#2 ∧ (withE (encUnit 4 2 9 8 4 false 0)).enc.pcnt = 2#2
      ∧ (withE (encUnit 4 1 9 0 4 false 0)).enc.ll.toNat ≤ (withE (encUnit 4 1 9 0 4 false 0)).enc.col.toNat
      ∧ ¬(withE (encUnit 5 2 9 8 4 false 0)).enc.ll.toNat ≤ (withE (encUnit 5 2 9 8 4 false 0)).enc.col.toNat := by decide

theorem wit_EncoderReadbacksReturnTheirFields : (withE (encUnit 76 2 0x6C 0x6F 8 false 3)).enc.pcnt ≠ 3#2 := by decide

theorem wit_TablesAreMutualInverses : rev 0x2F#16 = some 63#6 := by decide

/-- An absent unit, and a present one in each phase. -/
theorem wit_DecCharStepsThePhaseMachine :
    rev 0x3D#16 = none ∧ rev 0x47#16 = some 6#6
      ∧ (withD { phase := 0, rem := 0, derr := 0 }).dec.phase = 0#2 ∧ (withD { phase := 1, rem := 27, derr := 0 }).dec.phase = 1#2
      ∧ (withD { phase := 2, rem := 6, derr := 0 }).dec.phase = 2#2 ∧ (withD { phase := 3, rem := 1, derr := 0 }).dec.phase = 3#2 := by
  decide

theorem wit_SymbolAIsPresentWithValueZero : ∃ t, exec (.decChar 0x0041#16) State.reset = .next t := ⟨_, rfl⟩

theorem wit_EncWriteRefinesTheDocumentWrite :
    CountOk (encUnit 4 2 1 2 4 false 0) ∧ SlotsOk (encUnit 4 2 1 2 4 false 0) ∧ (encUnit 4 2 1 2 4 false 0).flushed = false := by decide

theorem wit_LinesHaveTheirWidth : (1#16 : BitVec 16) ≠ 0#16 := by decide

theorem wit_PaddingFollowsLengthModThree : ([0#8] : List Octet) ≠ [] ∧ (0#16 = 0#16 ∨ lbChar ≠ pad) := ⟨by decide, .inl rfl⟩

theorem wit_AbsentUnitsCanBeInsertedAnywhere :
    ([0x61#16, 0x47#16].filter fun c => (rev c).isSome)
      = ([0x0A#16, 0x61#16, 0x3D#16, 0x47#16, 0x0141#16].filter fun c => (rev c).isSome) := by decide

end Sys2Proof.Tests
end

/-! ## The state's elements and the steps (10_state.md)

What a command word does to its unit is said once, as the relations `EncoderMove` and `DecoderMove`; `exec_moves` and `performWord_moves`
tie them to the model, `step_keeps` packages the induction step of every invariant, and the obligations are read off from there. -/

namespace Sys2Proof.Machine

/-! ### Moves: what a decoded word does to its unit, and the record it returns -/

/-- The move of the encoder unit `e` under a decoded word: the unit after it and the record returned (40_encoder.md R110 to R115,
60_exceptions.md R172). -/
inductive EncoderMove (e : EncoderUnit) : Decoded → EncoderUnit → Record → Prop where
  | init (ll : BitVec 16) :
      EncoderMove e (.instr (.encInit ll)) { EncoderUnit.reset with ll := ll } (successRecord [] 0#32)
  | byte (b : Octet) (hf : e.flushed = false) (hp : e.pcnt ≠ 3#2) :
      EncoderMove e (.instr (.encByte b)) (byteUnit lbChar b e).1 (successRecord (byteUnit lbChar b e).2 0#32)
  | flush (hf : e.flushed = false) (hp : e.pcnt ≠ 3#2) :
      EncoderMove e (.instr .encFlush) { clearPending (flushGroup lbChar e).1 with flushed := true }
        (successRecord (flushGroup lbChar e).2 0#32)
  | byteAfterFlush (b : Octet) :
      EncoderMove e (.instr (.encByte b)) { e with eerr := stickyError e.eerr .afterFlush } failRecord
  | flushAfterFlush :
      EncoderMove e (.instr .encFlush) { e with eerr := stickyError e.eerr .afterFlush } failRecord
  | rdstat : EncoderMove e (.instr .encRdstat) e (successRecord [] (encStatusWord e))
  | rdcfg : EncoderMove e (.instr .encRdcfg) e (successRecord [] (encConfigWord lbChar e))
  | rdpend : EncoderMove e (.instr .encRdpend) e (successRecord [] (encPendingWord e))
  | illegalWord (x : UsageError) :
      EncoderMove e (.usageError .encoder x) { e with eerr := stickyError e.eerr x } failRecord

/-- The move of the decoder unit `d` under a decoded word (41_decoder.md R150 to R152, 60_exceptions.md R172). No decoder word raises
`AFTER_FLUSH`. -/
inductive DecoderMove (d : DecoderUnit) : Decoded → DecoderUnit → Record → Prop where
  | init : DecoderMove d (.instr .decInit) DecoderUnit.reset (successRecord [] 0#32)
  | char (c : CodeUnit) :
      DecoderMove d (.instr (.decChar c)) (charUnit c d).1 (successRecord (charUnit c d).2 0#32)
  | rdstat : DecoderMove d (.instr .decRdstat) d (successRecord [] (decStatusWord d))
  | illegalWord (x : UsageError) (hx : x ≠ .afterFlush) :
      DecoderMove d (.usageError .decoder x) { d with derr := stickyError d.derr x } failRecord

/-- A decoded word moves one unit, returns that unit's record, and leaves the rest of the state as it is. -/
inductive Moves (s : State) (x : Decoded) : State → Prop where
  | encoder {e : EncoderUnit} {r : Record} (h : EncoderMove s.enc x e r) : Moves s x (respond .encoder r (withEnc e s))
  | decoder {d : DecoderUnit} {r : Record} (h : DecoderMove s.dec x d r) : Moves s x (respond .decoder r (withDec d s))

/-- A completed ENC.BYTE is a move. -/
theorem execEncByte_moves {b : Octet} {s t : State} (h : execEncByte b s = .next t) : Moves s (.instr (.encByte b)) t := by
  cases hf : s.enc.flushed with
  | true =>
    simp only [execEncByte, encByteWith, hf, if_true] at h
    cases h
    exact .encoder (.byteAfterFlush b)
  | false =>
    by_cases hp : s.enc.pcnt = 3#2
    · simp [execEncByte, encByteWith, hf, hp] at h
    · rw [execEncByte, encByteWith_eq lbChar b s hf hp] at h
      cases h
      exact .encoder (.byte b hf hp)

/-- A completed ENC.FLUSH is a move. -/
theorem execEncFlush_moves {s t : State} (h : execEncFlush s = .next t) : Moves s (.instr .encFlush) t := by
  cases hf : s.enc.flushed with
  | true =>
    simp only [execEncFlush, encFlushWith, hf, if_true] at h
    cases h
    exact .encoder .flushAfterFlush
  | false =>
    by_cases hp : s.enc.pcnt = 3#2
    · simp [execEncFlush, encFlushWith, hf, hp] at h
    · rw [execEncFlush, encFlushWith_eq lbChar s hf hp] at h
      cases h
      exact .encoder (.flush hf hp)

/-- Every instruction that completes is a move. -/
theorem exec_moves {i : Instr} {s t : State} (h : exec i s = .next t) : Moves s (.instr i) t := by
  cases i with
  | encInit ll => cases h; exact .encoder (.init ll)
  | encByte b => exact execEncByte_moves h
  | encFlush => exact execEncFlush_moves h
  | encRdstat =>
    simp only [exec, execEncRdstat] at h
    split at h <;> cases h
    exact .encoder .rdstat
  | encRdcfg => cases h; exact .encoder .rdcfg
  | encRdpend =>
    simp only [exec, execEncRdpend] at h
    split at h <;> cases h
    exact .encoder .rdpend
  | decInit => cases h; exact .decoder .init
  | decChar c =>
    simp only [exec, execDecChar_eq] at h
    cases h
    exact .decoder (.char c)
  | decRdstat => cases h; exact .decoder .rdstat

/-- An illegal word has a reserved opcode or a must-be-0 bit set; use after a flush is no matter of decoding (30_encoding.md R88). -/
theorem decode_ne_afterFlush (w : Word) (u : CodecUnit) : decode w ≠ .usageError u .afterFlush := by
  unfold decode dispatchRow
  split_ifs
  · simp
  · simp
  · simp
  · split <;> simp

/-- Every command word that completes, legal or not, is a move. -/
theorem performWord_moves {w : Word} {s t : State} (h : performWord w s = .next t) : Moves s (decode w) t := by
  cases hd : decode w with
  | instr i => exact exec_moves (performWord_instr hd s ▸ h)
  | usageError u x =>
    rw [performWord_usageError hd] at h
    cases h
    cases u with
    | encoder => exact .encoder (.illegalWord x)
    | decoder => exact .decoder (.illegalWord x fun hx => decode_ne_afterFlush w .decoder (hx ▸ hd))

/-! ### The induction step of an invariant -/

/-- What every move, both resets and the host's own list keep is kept by every step. -/
theorem step_keeps {I : State → Prop} (inputs : ∀ s l, I s → I { s with inputs := l })
    (move : ∀ s x t, Moves s x t → I s → I t) (reset : ∀ s, I s → I (hardwareReset s))
    (cut : ∀ u s, I s → I (cutByReset u s)) {s t : State} (hs : I s) (h : step s = .next t) : I t := by
  cases hin : s.inputs with
  | nil =>
    rw [step_nil hin] at h
    cases h
    exact hs
  | cons input rest =>
    rw [step_cons hin] at h
    have hrest := inputs s rest hs
    cases input with
    | command w => exact move _ _ _ (performWord_moves h) hrest
    | reset => cases h; exact reset _ hrest
    | resetDuring w => cases h; exact cut _ _ hrest

/-- A property of the encoder unit that reset has and every encoder move keeps is kept by every step. -/
theorem step_keeps_encoder {P : EncoderUnit → Prop} (reset : P EncoderUnit.reset)
    (move : ∀ {e x e' r}, EncoderMove e x e' r → P e → P e') {s t : State} (hs : P s.enc) (h : step s = .next t) :
    P t.enc := by
  refine step_keeps (I := fun s => P s.enc) (fun _ _ h => h) ?_ (fun _ _ => reset) (fun _ _ _ => reset) hs h
  rintro s x _ (hm | _) hs
  · exact move hm hs
  · exact hs

/-- A property of the decoder unit that reset has and every decoder move keeps is kept by every step. -/
theorem step_keeps_decoder {P : DecoderUnit → Prop} (reset : P DecoderUnit.reset)
    (move : ∀ {d x d' r}, DecoderMove d x d' r → P d → P d') {s t : State} (hs : P s.dec) (h : step s = .next t) :
    P t.dec := by
  refine step_keeps (I := fun s => P s.dec) (fun _ _ h => h) ?_ (fun _ _ => reset) (fun _ _ _ => reset) hs h
  rintro s x _ (_ | hm) hs
  · exact hs
  · exact move hm hs

/-! ### What the parts of the encoder datapath keep -/

/-- A count that is neither 2 nor 3 is 0 or 1. -/
theorem pcnt_eq_zero_or_one {p : BitVec 2} (h2 : p ≠ 2#2) (h3 : p ≠ 3#2) : p = 0#2 ∨ p = 1#2 := by
  revert p; decide

/-- ENC.BYTE buffers its byte in PB0, buffers it in PB1, or completes a group (40_encoder.md R111). -/
theorem byteUnit_unit_cases (lb b : Octet) {e : EncoderUnit} (hp : e.pcnt ≠ 3#2) :
    (e.pcnt = 0#2 ∧ (byteUnit lb b e).1 = { e with pcnt := 1#2, pb0 := b })
      ∨ (e.pcnt = 1#2 ∧ (byteUnit lb b e).1 = { e with pcnt := 2#2, pb1 := b })
      ∨ (e.pcnt = 2#2 ∧ (byteUnit lb b e).1 = clearPending (group lb e.pb0 e.pb1 b 4 e).1) := by
  by_cases h2 : e.pcnt = 2#2
  · exact .inr (.inr ⟨h2, by simp [byteUnit, h2]⟩)
  · rcases pcnt_eq_zero_or_one h2 hp with h | h
    · exact .inl ⟨h, by simp [byteUnit, push, h]⟩
    · exact .inr (.inl ⟨h, by simp [byteUnit, push, h]⟩)

/-- What ENC.FLUSH emits is one group of the pending bytes, or nothing (40_encoder.md R112). -/
theorem flushGroup_cases (lb : Octet) (e : EncoderUnit) :
    (∃ v2 k, k ≤ 4 ∧ flushGroup lb e = group lb e.pb0 v2 0x00#8 k e) ∨ flushGroup lb e = (e, []) := by
  unfold flushGroup
  split_ifs
  · exact .inl ⟨_, 3, by decide, rfl⟩
  · exact .inl ⟨_, 2, by decide, rfl⟩
  · exact .inr rfl

@[simp] theorem group_ll (lb v1 v2 v3 : Octet) (k : Nat) (e : EncoderUnit) : (group lb v1 v2 v3 k e).1.ll = e.ll := by
  rw [group_unit]

@[simp] theorem group_flushed (lb v1 v2 v3 : Octet) (k : Nat) (e : EncoderUnit) :
    (group lb v1 v2 v3 k e).1.flushed = e.flushed := by
  rw [group_unit]

@[simp] theorem group_eerr (lb v1 v2 v3 : Octet) (k : Nat) (e : EncoderUnit) :
    (group lb v1 v2 v3 k e).1.eerr = e.eerr := by
  rw [group_unit]

/-- ENC.BYTE that is not refused leaves LL, FLUSHED and EERR alone. -/
theorem byteUnit_frame (lb b : Octet) (e : EncoderUnit) :
    (byteUnit lb b e).1.ll = e.ll ∧ (byteUnit lb b e).1.flushed = e.flushed ∧ (byteUnit lb b e).1.eerr = e.eerr := by
  unfold byteUnit push
  split_ifs <;> simp [clearPending]

/-- The group that ENC.FLUSH emits leaves LL and EERR alone. -/
theorem flushGroup_frame (lb : Octet) (e : EncoderUnit) :
    (flushGroup lb e).1.ll = e.ll ∧ (flushGroup lb e).1.eerr = e.eerr := by
  rcases flushGroup_cases lb e with ⟨v2, k, -, h⟩ | h <;> simp [h]

/-- A group is at most one line break and four characters. -/
theorem group_out_length_le (lb v1 v2 v3 : Octet) {k : Nat} (hk : k ≤ 4) (e : EncoderUnit) :
    (group lb v1 v2 v3 k e).2.length ≤ 5 := by
  rw [group_out_length lb v1 v2 v3 k hk e]
  split <;> decide

theorem byteUnit_out_length_le (lb b : Octet) (e : EncoderUnit) : (byteUnit lb b e).2.length ≤ 5 := by
  unfold byteUnit
  split
  · exact group_out_length_le lb _ _ _ le_rfl e
  · exact Nat.zero_le 5

theorem flushGroup_out_length_le (lb : Octet) (e : EncoderUnit) : (flushGroup lb e).2.length ≤ 5 := by
  rcases flushGroup_cases lb e with ⟨v2, k, hk, h⟩ | h
  · exact h ▸ group_out_length_le lb _ _ _ hk e
  · simp [h]

/-! ### The pending count, the slots and FLUSHED -/

theorem EncoderMove.keeps_countOk {e e' : EncoderUnit} {x : Decoded} {r : Record} (h : EncoderMove e x e' r)
    (he : CountOk e) : CountOk e' := by
  cases h with
  | init | flush => exact (by decide : (0#2 : BitVec 2) ≠ 3#2)
  | byte b _ hp => rcases byteUnit_unit_cases lbChar b hp with ⟨_, h⟩ | ⟨_, h⟩ | ⟨_, h⟩ <;> simp [h, clearPending]
  | byteAfterFlush | flushAfterFlush | illegalWord | rdstat | rdcfg | rdpend => exact he

theorem EncoderMove.keeps_slotsOk {e e' : EncoderUnit} {x : Decoded} {r : Record} (h : EncoderMove e x e' r)
    (he : SlotsOk e) : SlotsOk e' := by
  cases h with
  | init | flush => exact ⟨fun _ => ⟨rfl, rfl⟩, fun _ => rfl⟩
  | byte b _ hp =>
    rcases byteUnit_unit_cases lbChar b hp with ⟨h0, h⟩ | ⟨_, h⟩ | ⟨_, h⟩
    · simp [SlotsOk, h, (he.1 h0).2]
    · simp [SlotsOk, h]
    · simp [SlotsOk, h, clearPending]
  | byteAfterFlush | flushAfterFlush | illegalWord | rdstat | rdcfg | rdpend => exact he

theorem EncoderMove.keeps_flushOk {e e' : EncoderUnit} {x : Decoded} {r : Record} (h : EncoderMove e x e' r)
    (he : FlushOk e) : FlushOk e' := by
  cases h with
  | init | flush => exact fun _ => rfl
  | byte b hf =>
    obtain ⟨_, hflushed, _⟩ := byteUnit_frame lbChar b e
    simp [FlushOk, hflushed, hf]
  | byteAfterFlush | flushAfterFlush | illegalWord | rdstat | rdcfg | rdpend => exact he

/-- A count that has a meaning is at most 2. -/
theorem countOk_iff (e : EncoderUnit) : CountOk e ↔ e.pcnt.toNat ≤ 2 := by
  unfold CountOk
  bv_omega

/-! ### The column -/

theorem fullLine_bounds (ll : BitVec 16) : fullLine ll ≤ ll.toNat + 3 ∧ fullLine ll ≤ 65536 := by
  have := ll.isLt
  unfold fullLine
  omega

theorem breakDue_iff (e : EncoderUnit) : breakDue e = true ↔ e.ll ≠ 0#16 ∧ e.ll.toNat ≤ e.col.toNat := by
  have h : e.ll.toNat % 131072 = e.ll.toNat := Nat.mod_eq_of_lt (by have := e.ll.isLt; omega)
  simp [breakDue, wrapping, BitVec.le_def, h]

/-- A group keeps the column bound: after a break it stands at column 4, and where no break is due the column, a multiple of 4
below LL, has room for 4 more characters in a full line. -/
theorem group_columnOk (lb v1 v2 v3 : Octet) (k : Nat) {e : EncoderUnit} (he : ColumnOk e) :
    ColumnOk (group lb v1 v2 v3 k e).1 := by
  obtain ⟨hmod, -⟩ := he
  rw [group_unit]
  split_ifs with hdue
  · refine ⟨by simp, fun h => ?_⟩
    unfold fullLine
    bv_omega
  · refine ⟨by bv_omega, fun h => ?_⟩
    have hcol : e.col.toNat < e.ll.toNat := by
      by_contra hge
      exact hdue ((breakDue_iff e).2 ⟨h, by omega⟩)
    unfold fullLine
    bv_omega

/-- Buffering a byte does not move the column. -/
theorem byteUnit_columnOk (lb b : Octet) {e : EncoderUnit} (he : ColumnOk e) : ColumnOk (byteUnit lb b e).1 := by
  unfold byteUnit push
  split_ifs
  · exact group_columnOk lb e.pb0 e.pb1 b 4 he
  · exact he
  · exact he

theorem flushGroup_columnOk (lb : Octet) {e : EncoderUnit} (he : ColumnOk e) : ColumnOk (flushGroup lb e).1 := by
  rcases flushGroup_cases lb e with ⟨v2, k, _, h⟩ | h
  · exact h ▸ group_columnOk lb _ _ _ _ he
  · exact h ▸ he

theorem EncoderMove.keeps_columnOk {e e' : EncoderUnit} {x : Decoded} {r : Record} (h : EncoderMove e x e' r)
    (he : ColumnOk e) : ColumnOk e' := by
  cases h with
  | init => exact ⟨rfl, fun _ => Nat.zero_le _⟩
  | byte b => exact byteUnit_columnOk lbChar b he
  | flush => exact flushGroup_columnOk lbChar he
  | byteAfterFlush | flushAfterFlush | illegalWord | rdstat | rdcfg | rdpend => exact he

/-! ### REM by PHASE -/

theorem reset_remOk : RemOk DecoderUnit.reset := by decide

/-- The accumulator leaves in REM the bits that its new phase holds (41_decoder.md R142). -/
theorem accumulate_remOk (v : SymbolIndex) (d : DecoderUnit) : RemOk (accumulate v d).1 := by
  have h15 : (v &&& 0xF#6).toNat ≤ 15 := Nat.and_le_right
  have h3 : (v &&& 0x3#6).toNat ≤ 3 := Nat.and_le_right
  unfold accumulate
  split_ifs
  · exact ⟨nofun, nofun, nofun⟩
  · exact ⟨nofun, fun _ => h15, nofun⟩
  · exact ⟨nofun, nofun, fun _ => h3⟩
  · exact ⟨fun _ => rfl, nofun, nofun⟩

theorem charUnit_remOk (c : CodeUnit) {d : DecoderUnit} (hd : RemOk d) : RemOk (charUnit c d).1 := by
  unfold charUnit
  split
  · exact hd
  · exact accumulate_remOk _ d

theorem DecoderMove.keeps_remOk {d d' : DecoderUnit} {x : Decoded} {r : Record} (h : DecoderMove d x d' r)
    (hd : RemOk d) : RemOk d' := by
  cases h with
  | init => exact reset_remOk
  | char c => exact charUnit_remOk c hd
  | rdstat | illegalWord => exact hd

/-! ### The error codes -/

/-- DEC.CHAR leaves DERR alone. -/
@[simp] theorem charUnit_derr (c : CodeUnit) (d : DecoderUnit) : (charUnit c d).1.derr = d.derr := by
  unfold charUnit
  split
  · rfl
  · exact accumulate_derr _ d

/-- A sticky field that is at most `n` stays so under an error whose code is at most `n`. -/
theorem stickyError_toNat_le {old : BitVec 3} {x : UsageError} {n : Nat} (hold : old.toNat ≤ n)
    (hx : (errorCode x).toNat ≤ n) : (stickyError old x).toNat ≤ n := by
  unfold stickyError
  split <;> assumption

theorem errorCode_toNat_le (x : UsageError) : (errorCode x).toNat ≤ 3 := by
  cases x <;> decide

theorem errorCode_toNat_le_two {x : UsageError} (hx : x ≠ .afterFlush) : (errorCode x).toNat ≤ 2 := by
  cases x with
  | rsvdOp | rsvdField => decide
  | afterFlush => exact absurd rfl hx

theorem EncoderMove.keeps_eerr_le {e e' : EncoderUnit} {x : Decoded} {r : Record} (h : EncoderMove e x e' r)
    (he : e.eerr.toNat ≤ 3) : e'.eerr.toNat ≤ 3 := by
  cases h with
  | init => exact Nat.zero_le 3
  | byte b => rwa [(byteUnit_frame lbChar b e).2.2]
  | flush => exact (congrArg BitVec.toNat (flushGroup_frame lbChar e).2).trans_le he
  | byteAfterFlush | flushAfterFlush | illegalWord => exact stickyError_toNat_le he (errorCode_toNat_le _)
  | rdstat | rdcfg | rdpend => exact he

theorem DecoderMove.keeps_derr_le {d d' : DecoderUnit} {x : Decoded} {r : Record} (h : DecoderMove d x d' r)
    (hd : d.derr.toNat ≤ 2) : d'.derr.toNat ≤ 2 := by
  cases h with
  | init => exact Nat.zero_le 2
  | char c => rwa [charUnit_derr]
  | rdstat => exact hd
  | illegalWord x hx => exact stickyError_toNat_le hd (errorCode_toNat_le_two hx)

/-! ### The form of the records -/

/-- A record made from at most five octets has the form of 30_encoding.md R77. -/
theorem successRecord_recordOk {out : List Octet} (h : out.length ≤ 5) (w : Word) : RecordOk (successRecord out w) := by
  have hlen : (successRecord out w).outLen.toNat = out.length := by
    simp [successRecord]; omega
  refine ⟨hlen.trans_le h, fun k hk hle => ?_, nofun⟩
  rw [hlen] at hle
  exact (packOctets_octet out h k hk).trans (by simp [List.getD_eq_getElem?_getD, hle])

theorem noOutput_recordOk (w : Word) : RecordOk (successRecord [] w) := successRecord_recordOk (by decide) w

theorem failRecord_recordOk : RecordOk failRecord := by
  refine ⟨Nat.zero_le 5, fun k _ _ => ?_, fun _ => ⟨rfl, rfl, rfl⟩⟩
  simp [failRecord]

theorem charUnit_out_length_le (c : CodeUnit) (d : DecoderUnit) : (charUnit c d).2.length ≤ 5 := by
  unfold charUnit
  split
  · exact Nat.zero_le 5
  · exact (accumulate_out_length _ d).trans (by decide)

theorem EncoderMove.recordOk {e e' : EncoderUnit} {x : Decoded} {r : Record} (h : EncoderMove e x e' r) : RecordOk r := by
  cases h with
  | byte b => exact successRecord_recordOk (byteUnit_out_length_le lbChar b e) _
  | flush => exact successRecord_recordOk (flushGroup_out_length_le lbChar e) _
  | byteAfterFlush | flushAfterFlush | illegalWord => exact failRecord_recordOk
  | init | rdstat | rdcfg | rdpend => exact noOutput_recordOk _

theorem DecoderMove.recordOk {d d' : DecoderUnit} {x : Decoded} {r : Record} (h : DecoderMove d x d' r) : RecordOk r := by
  cases h with
  | char c => exact successRecord_recordOk (charUnit_out_length_le c d) _
  | init | rdstat => exact noOutput_recordOk _
  | illegalWord => exact failRecord_recordOk

/-- One more response keeps the form of the records if it has the form or was cut off. -/
theorem responsesOk_of_append {s t : State} {p : Response} (hs : ResponsesOk s) (ht : t.responses = s.responses ++ [p])
    (hp : p.completed = true → RecordOk p.record) : ResponsesOk t := by
  intro q hq
  rw [ht, List.mem_append, List.mem_singleton] at hq
  rcases hq with hq | rfl
  · exact hs q hq
  · exact hp

/-! ### Every step keeps each part of the invariant -/

section
variable {s t : State} (h : step s = .next t)
include h

theorem step_keeps_countOk (hs : CountOk s.enc) : CountOk t.enc :=
  step_keeps_encoder (P := CountOk) (by decide) EncoderMove.keeps_countOk hs h

theorem step_keeps_slotsOk (hs : SlotsOk s.enc) : SlotsOk t.enc :=
  step_keeps_encoder (P := SlotsOk) (by decide) EncoderMove.keeps_slotsOk hs h

theorem step_keeps_columnOk (hs : ColumnOk s.enc) : ColumnOk t.enc :=
  step_keeps_encoder (P := ColumnOk) (by decide) EncoderMove.keeps_columnOk hs h

theorem step_keeps_flushOk (hs : FlushOk s.enc) : FlushOk t.enc :=
  step_keeps_encoder (P := FlushOk) (by decide) EncoderMove.keeps_flushOk hs h

theorem step_keeps_remOk (hs : RemOk s.dec) : RemOk t.dec :=
  step_keeps_decoder (P := RemOk) reset_remOk DecoderMove.keeps_remOk hs h

theorem step_keeps_errorsOk (hs : ErrorsOk s) : ErrorsOk t :=
  ⟨step_keeps_encoder (P := fun e => e.eerr.toNat ≤ 3) (by decide) EncoderMove.keeps_eerr_le hs.1 h,
    step_keeps_decoder (P := fun d => d.derr.toNat ≤ 2) (by decide) DecoderMove.keeps_derr_le hs.2 h⟩

theorem step_keeps_responsesOk (hs : ResponsesOk s) : ResponsesOk t := by
  refine step_keeps (I := ResponsesOk) (fun _ _ h => h) ?_ (fun _ h => h) ?_ hs h
  · rintro s x _ (hm | hm) hs
    · exact responsesOk_of_append hs (respond_responses ..) fun _ => hm.recordOk
    · exact responsesOk_of_append hs (respond_responses ..) fun _ => hm.recordOk
  · exact fun u s hs => responsesOk_of_append hs (cutByReset_responses s u) nofun

end

/-! ### The obligations -/

/-- Settles O17: each part of the invariant is kept by every move of its unit and by both resets, on its own. -/
theorem stepKeepsTheInvariant : Obligations.StepKeepsTheInvariant := by
  intro s t ⟨hcount, hslots, hcolumn, hflush, hrem, herrors, hresponses⟩ h
  exact ⟨step_keeps_countOk h hcount, step_keeps_slotsOk h hslots, step_keeps_columnOk h hcolumn,
    step_keeps_flushOk h hflush, step_keeps_remOk h hrem, step_keeps_errorsOk h herrors,
    step_keeps_responsesOk h hresponses⟩

/-- Settles O18: a count of at most 2 is a count that has a meaning, which every move keeps. -/
theorem stepNeverMakesPendingCountThree : Obligations.StepNeverMakesPendingCountThree := by
  intro s t hs h
  exact (countOk_iff _).1 (step_keeps_countOk h ((countOk_iff _).2 hs))

/-- Settles O19: the accumulator leaves REM in the range of its new phase, and nothing else but an INIT or a reset writes either. -/
theorem stepKeepsRemRangeByPhase : Obligations.StepKeepsRemRangeByPhase :=
  fun _ _ hs h => step_keeps_remOk h hs

/-- Settles O20: besides an INIT and a reset, only a group moves COL, and it keeps the bound. -/
theorem stepKeepsColumnBound : Obligations.StepKeepsColumnBound := by
  refine ⟨fun s t hs h => step_keeps_columnOk h hs, fun ll => ?_⟩
  obtain ⟨hplus, hmax⟩ := fullLine_bounds ll
  exact ⟨hplus, hmax, by omega⟩

/-- Settles O23: move by move, the elements that the move leaves alone. -/
theorem elementsAreWrittenOnlyByTheirOperations : Obligations.ElementsAreWrittenOnlyByTheirOperations := by
  intro i s t h
  rcases exec_moves h with hm | hm
  · cases hm with
    | byte b =>
      obtain ⟨hll, hflushed, -⟩ := byteUnit_frame lbChar b s.enc
      simp [hll, hflushed]
    | flush =>
      obtain ⟨hll, -⟩ := flushGroup_frame lbChar s.enc
      simp [clearPending, hll]
    | init | byteAfterFlush | flushAfterFlush | rdstat | rdcfg | rdpend => simp
  · cases hm with
    | init | char | rdstat => simp

/-- Settles O24: what an instruction does is settled by its own unit, whatever the other unit holds. -/
theorem unitsShareNoState : Obligations.UnitsShareNoState := by
  intro i s t h
  refine ⟨fun hu => ?_, fun hu => ?_⟩
  · rcases exec_encoder_local hu s.enc with ⟨e, r, hnext⟩ | ⟨-, f, hfault⟩
    · cases (hnext s rfl).symm.trans h
      exact ⟨rfl, fun d => hnext { s with dec := d } rfl⟩
    · cases (hfault s rfl).symm.trans h
  · obtain ⟨d, r, hnext⟩ := exec_decoder_local hu s.dec
    cases (hnext s rfl).symm.trans h
    exact ⟨rfl, fun e => hnext { s with enc := e } rfl⟩

/-- Settles O15: the reset values of 10_state.md R39, element by element. -/
theorem resetValues : Obligations.ResetValues :=
  ⟨rfl, rfl, rfl, rfl, rfl, rfl, rfl, rfl, rfl, rfl⟩

/-- Settles O16: each part of the invariant is a closed fact about the reset values. -/
theorem resetMeetsTheInvariant : Obligations.ResetMeetsTheInvariant := by
  unfold Obligations.ResetMeetsTheInvariant
  decide

end Sys2Proof.Machine

/-! ## The tables and the order of commands (20_memory.md)

A run of commands is followed on one unit at a time by the relation `SameUnit`; a text fed to the decoder is the function `charsUnit` of
its unit, tied to the model by `issue_decWriteWords` and `issue_decStreamWords`, and its bits are accounted for by `charsUnit_bits`. -/

namespace Sys2Proof.Machine

/-! ### One list of commands after another (20_memory.md R62) -/

/-- Issuing two lists of commands in a row is issuing the second in what the first left. -/
theorem issue_append (ws₁ ws₂ : List Word) (s : State) :
    issue (ws₁ ++ ws₂) s = andThen (issue ws₁ s) (issue ws₂) := by
  induction ws₁ generalizing s with
  | nil => exact (issue_withInputs ws₂ s []).symm
  | cons w ws ih =>
    rw [List.cons_append, issue_cons, issue_cons]
    cases performWord w s with
    | next t => exact ih t
    | fault r => rfl
    | refused r => rfl

/-! ### What a command word does to its own unit and to the other one (10_state.md R40, 20_memory.md R62) -/

/-- The unit `u` holds the same elements in both states and has returned the same records. -/
def SameUnit (u : CodecUnit) (s t : State) : Prop :=
  (match u with
    | .encoder => s.enc = t.enc
    | .decoder => s.dec = t.dec)
    ∧ unitResponses u s.responses = unitResponses u t.responses

theorem SameUnit.refl (u : CodecUnit) (s : State) : SameUnit u s s := by
  cases u <;> exact ⟨rfl, rfl⟩

theorem SameUnit.trans {u : CodecUnit} {s t v : State} (h : SameUnit u s t) (h' : SameUnit u t v) : SameUnit u s v := by
  cases u <;> exact ⟨h.1.trans h'.1, h.2.trans h'.2⟩

/-- The records of a unit after one more response. -/
theorem unitResponses_append_singleton (u : CodecUnit) (ps : List Response) (p : Response) :
    unitResponses u (ps ++ [p]) = unitResponses u ps ++ if p.unit = u then [p] else [] := by
  by_cases h : p.unit = u <;> simp [unitResponses, h]

/-- One command word keeps a pending count that has a meaning. -/
theorem performWord_keeps_countOk {w : Word} {s t : State} (h : performWord w s = .next t) (hs : CountOk s.enc) :
    CountOk t.enc := by
  rcases performWord_moves h with hm | _
  · exact hm.keeps_countOk hs
  · exact hs

/-- Two states that agree on the unit of a command word still do after it, and the word completes in both. -/
theorem performWord_sameUnit {w : Word} {s s' : State} (hs : CountOk s.enc) (h : SameUnit (unitOf w) s s') :
    ∃ t t', performWord w s = .next t ∧ performWord w s' = .next t' ∧ SameUnit (unitOf w) t t' := by
  cases hw : unitOf w with
  | encoder =>
    obtain ⟨hunit, hresponses⟩ := hw ▸ h
    rcases performWord_encoder_local hw s.enc with ⟨e, r, hnext⟩ | ⟨hp, -⟩
    · exact ⟨_, _, hnext s rfl, hnext s' hunit.symm, rfl, by simp [unitResponses_append_singleton, hresponses]⟩
    · exact absurd hp hs
  | decoder =>
    obtain ⟨hunit, hresponses⟩ := hw ▸ h
    obtain ⟨d, r, hnext⟩ := performWord_decoder_local hw s.dec
    exact ⟨_, _, hnext s rfl, hnext s' hunit.symm, rfl, by simp [unitResponses_append_singleton, hresponses]⟩

/-- A command word leaves the other unit and its records alone. -/
theorem performWord_otherUnit {u : CodecUnit} {w : Word} {s t : State} (hu : unitOf w ≠ u)
    (h : performWord w s = .next t) : SameUnit u t s := by
  cases hw : unitOf w with
  | encoder =>
    rcases performWord_encoder_local hw s.enc with ⟨e, r, hnext⟩ | ⟨-, f, hfault⟩
    · cases (hnext s rfl).symm.trans h
      cases u with
      | encoder => exact absurd hw hu
      | decoder => exact ⟨rfl, by simp [unitResponses_append_singleton]⟩
    · cases (hfault s rfl).symm.trans h
  | decoder =>
    obtain ⟨d, r, hnext⟩ := performWord_decoder_local hw s.dec
    cases (hnext s rfl).symm.trans h
    cases u with
    | encoder => exact ⟨rfl, by simp [unitResponses_append_singleton]⟩
    | decoder => exact absurd hw hu

/-- A list of commands completes, and does to the unit `u` what the commands of `u` alone do from any state that agrees on `u`. -/
theorem issue_sameUnit_filter (u : CodecUnit) (ws : List Word) {s s' : State} (hs : CountOk s.enc) (h : SameUnit u s s') :
    ∃ t t', issue ws s = .next t ∧ issue (ws.filter fun w => unitOf w == u) s' = .next t' ∧ SameUnit u t t' := by
  induction ws generalizing s s' with
  | nil => exact ⟨_, _, issue_nil s, issue_nil s', by cases u <;> exact h⟩
  | cons w ws ih =>
    obtain ⟨t, -, ht, -⟩ := performWord_sameUnit (w := w) hs (.refl _ s)
    have hcount := performWord_keeps_countOk ht hs
    by_cases hu : unitOf w = u
    · subst hu
      obtain ⟨_, t', ht₁, ht', hagree⟩ := performWord_sameUnit hs h
      cases ht.symm.trans ht₁
      simpa [issue_cons, ht, ht'] using ih hcount hagree
    · simpa [issue_cons, ht, hu] using ih hcount ((performWord_otherUnit hu ht).trans h)

/-! ### The two tables (20_memory.md R51 to R57) -/

/-- The alphabet index is read back from its symbol (20_memory.md R53). -/
theorem rev_alpha (i : SymbolIndex) : rev ((alpha i).setWidth 16) = some i := by
  revert i
  decide

/-- The value of an alphabet symbol, range by range (20_memory.md R51). -/
theorem alpha_toNat (i : SymbolIndex) :
    (alpha i).toNat =
      if i.toNat ≤ 25 then 0x41 + i.toNat
      else if i.toNat ≤ 51 then 0x61 + (i.toNat - 26)
      else if i.toNat ≤ 61 then 0x30 + (i.toNat - 52)
      else if i.toNat = 62 then 0x2B
      else 0x2F := by
  revert i
  decide

/-- A code unit with an entry is the symbol of its entry (20_memory.md R53). -/
theorem eq_alpha_of_rev {c : CodeUnit} {i : SymbolIndex} (h : rev c = some i) : c = (alpha i).setWidth 16 := by
  have hc : c.toNat = (alpha i).toNat := by
    rw [alpha_toNat]
    unfold rev at h
    -- Each range of `REV` gives indices of one range of `ALPHA`; the bounds exclude the others.
    split_ifs at h <;> cases h <;> simp only [BitVec.toNat_ofNat] <;> split_ifs <;> omega
  apply BitVec.eq_of_toNat_eq
  rw [BitVec.toNat_setWidth, hc]
  exact (Nat.mod_eq_of_lt (by have := (alpha i).isLt; omega)).symm

/-- The 64 symbols of the alphabet, as code units in index order. -/
def alphabet : List CodeUnit := (List.finRange 64).map fun i => (alpha (BitVec.ofFin i)).setWidth 16

theorem alphabet_nodup : alphabet.Nodup := by
  refine (List.nodup_finRange 64).map fun i j h => ?_
  have hrev := congrArg rev h
  simpa [rev_alpha] using hrev

theorem mem_alphabet {c : CodeUnit} : c ∈ alphabet ↔ rev c ≠ none := by
  simp only [alphabet, List.mem_map, Option.ne_none_iff_exists']
  constructor
  · rintro ⟨i, -, rfl⟩
    exact ⟨_, rev_alpha _⟩
  · rintro ⟨i, h⟩
    exact ⟨i.toFin, List.mem_finRange _, (eq_alpha_of_rev h).symm⟩

/-- A legal line-break octet has no entry in `REV`, and `lbChar` is always legal (00_scope.md R7). -/
theorem rev_lbChar : rev (lbChar.setWidth 16) = none := by
  unfold lbChar
  split
  case isTrue h => exact Option.isNone_iff_eq_none.1 h
  case isFalse => decide

/-! ### The mapper's four indices are the 6-bit fields of the group word (20_memory.md R57) -/

theorem mapper_index0 (v1 v2 v3 : Octet) :
    (v1 >>> 2).setWidth 6 = (v1 ++ v2 ++ v3).extractLsb' 18 6 := by
  ext i hi
  simp only [BitVec.getElem_extractLsb', BitVec.getLsbD_append]
  interval_cases i <;> simp

theorem mapper_index1 (v1 v2 v3 : Octet) :
    (((v1 &&& 0x3#8) <<< 4) ||| (v2 >>> 4)).setWidth 6 = (v1 ++ v2 ++ v3).extractLsb' 12 6 := by
  ext i hi
  simp only [BitVec.getElem_extractLsb', BitVec.getLsbD_append]
  interval_cases i <;> simp

theorem mapper_index2 (v1 v2 v3 : Octet) :
    (((v2 &&& 0xF#8) <<< 2) ||| (v3 >>> 6)).setWidth 6 = (v1 ++ v2 ++ v3).extractLsb' 6 6 := by
  ext i hi
  simp only [BitVec.getElem_extractLsb', BitVec.getLsbD_append]
  interval_cases i <;> simp

theorem mapper_index3 (v1 v2 v3 : Octet) :
    (v3 &&& 0x3F#8).setWidth 6 = (v1 ++ v2 ++ v3).extractLsb' 0 6 := by
  ext i hi
  simp only [BitVec.getElem_extractLsb', BitVec.getLsbD_append]
  interval_cases i <;> simp

/-! ### Command words with a 16-bit operand (30_encoding.md R70, R85) -/

/-- A field of a command word above the operand is the field of its match. -/
theorem extractLsb'_or_operand {n : Nat} (hn : n ≤ 16) (m : Word) (x : BitVec n) {start len : Nat} (h : 16 ≤ start) :
    (m ||| x.setWidth 32).extractLsb' start len = m.extractLsb' start len := by
  ext i hi
  simp [BitVec.getLsbD_of_ge x (start + i) (by omega)]

/-- The operand field of a word whose match leaves it 0 is the operand. -/
theorem fieldOpnd_or_operand {m : Word} (hm : fieldOpnd m = 0#16) (x : BitVec 16) :
    fieldOpnd (m ||| x.setWidth 32) = x := by
  have hx : fieldOpnd (x.setWidth 32) = x := by
    rw [fieldOpnd, ← BitVec.setWidth_eq_extractLsb' (by decide), BitVec.setWidth_setWidth_of_le x (by decide),
      BitVec.setWidth_eq]
  unfold fieldOpnd at *
  rw [BitVec.extractLsb'_or, hm, hx, BitVec.zero_or]

/-- The command word of DEC.CHAR decodes to it, for every code unit. -/
theorem decode_encode_decChar (c : CodeUnit) : decode (encode (.decChar c)) = .instr (.decChar c) := by
  have hunit : unitOf (encode (.decChar c)) = .decoder := (Laws.MatchesRow.decChar c).2
  have hop : fieldOp (encode (.decChar c)) = 1#3 := extractLsb'_or_operand le_rfl _ c (by decide)
  have hrsv : fieldRsv (encode (.decChar c)) = 0#12 := extractLsb'_or_operand le_rfl _ c (by decide)
  have hopnd : fieldOpnd (encode (.decChar c)) = c := fieldOpnd_or_operand (by decide) c
  simp [decode, hunit, hop, hrsv, hopnd, reservedOp, operandBitsBad, dispatchRow, operandC]

/-! ### A text fed to the decoder (41_decoder.md R151) -/

/-- DEC.CHAR of each code unit of a text, as a function of the unit. -/
def charsUnit : List CodeUnit → DecoderUnit → DecoderUnit × List Octet
  | [], d => (d, [])
  | c :: cs, d =>
      ((charsUnit cs (charUnit c d).1).1, (charUnit c d).2 ++ (charsUnit cs (charUnit c d).1).2)

/-- A unit's output after one more completed response. -/
theorem unitOutput_respond (u : CodecUnit) (s : State) (out : List Octet) (w : Word) (h : out.length ≤ 5) :
    unitOutput u (respond u (successRecord out w) s).responses = unitOutput u s.responses ++ out := by
  simp [unitOutput, recordOut_successRecord out w h]

/-- The command word of DEC.CHAR does what `charUnit` says. -/
theorem performWord_decChar (c : CodeUnit) (s : State) :
    performWord (encode (.decChar c)) s = .next (respond .decoder (successRecord (charUnit c s.dec).2 0#32)
      (withDec (charUnit c s.dec).1 s)) :=
  (performWord_instr (decode_encode_decChar c) s).trans (execDecChar_eq c s)

theorem decWriteWords_cons (c : CodeUnit) (cs : List CodeUnit) :
    decWriteWords (c :: cs) = encode (.decChar c) :: decWriteWords cs := rfl

/-- `dec.write` of a text does what `charsUnit` says. -/
theorem issue_decWriteWords (cs : List CodeUnit) (s : State) :
    ∃ t, issue (decWriteWords cs) s = .next t ∧ t.dec = (charsUnit cs s.dec).1 ∧ t.enc = s.enc
      ∧ unitOutput .decoder t.responses = unitOutput .decoder s.responses ++ (charsUnit cs s.dec).2 := by
  induction cs generalizing s with
  | nil => exact ⟨_, rfl, rfl, rfl, (List.append_nil _).symm⟩
  | cons c cs ih =>
    obtain ⟨t, ht, hdec, henc, hout⟩ := ih (respond .decoder (successRecord (charUnit c s.dec).2 0#32)
      (withDec (charUnit c s.dec).1 s))
    refine ⟨t, ?_, hdec, henc, ?_⟩
    · rw [decWriteWords_cons, issue_cons, performWord_decChar, andThen_next, ht]
    · rw [hout, unitOutput_respond _ _ _ _ (charUnit_out_length_le c s.dec)]
      simp [charsUnit]

/-- A whole decoder stream: INIT makes the unit as reset does, and the text follows. -/
theorem issue_decStreamWords (cs : List CodeUnit) (s : State) :
    ∃ t, issue (decStreamWords cs) s = .next t ∧ t.dec = (charsUnit cs DecoderUnit.reset).1 ∧ t.enc = s.enc
      ∧ unitOutput .decoder t.responses = unitOutput .decoder s.responses ++ (charsUnit cs DecoderUnit.reset).2 := by
  have hinit : performWord (encode .decInit) s
      = .next (respond .decoder (successRecord [] 0#32) (withDec DecoderUnit.reset s)) :=
    performWord_instr (w := encode .decInit) (i := .decInit) (by decide) s
  obtain ⟨t, ht, hdec, henc, hout⟩ := issue_decWriteWords cs
    (respond .decoder (successRecord [] 0#32) (withDec DecoderUnit.reset s))
  refine ⟨t, ?_, hdec, henc, ?_⟩
  · rw [decStreamWords, issue_cons, hinit, andThen_next, ht]
  · rw [hout, unitOutput_respond _ _ [] _ (Nat.zero_le 5)]
    simp

/-! ### Bit strings (20_memory.md R58) -/

/-- The bits of a concatenation are the bits of its parts. -/
theorem bitString_append {m n : Nat} (x : BitVec m) (y : BitVec n) : bitString (x ++ y) = bitString x ++ bitString y := by
  simp only [bitString, List.range_add, List.map_append, List.map_map]
  congr 1
  · refine List.map_congr_left fun k hk => ?_
    simp [BitVec.getMsbD_append, List.mem_range.1 hk]
  · refine List.map_congr_left fun k hk => ?_
    simp [BitVec.getMsbD_append]

@[simp] theorem length_bitString {w : Nat} (v : BitVec w) : (bitString v).length = w := by
  simp [bitString]

/-- There are at most 6 held bits. -/
theorem length_heldBits_le (d : DecoderUnit) : (heldBits d).length ≤ 6 := by
  unfold heldBits
  split_ifs <;> simp

/-! ### The accumulator by phase, its bytes in the bit-field form of 41_decoder.md R163 -/

theorem phase1_octet (r v : SymbolIndex) :
    (r.setWidth 8 <<< 2) ||| (v >>> 4).setWidth 8 = r ++ v.extractLsb' 4 2 := by
  ext i hi
  rw [BitVec.getElem_append]
  interval_cases i <;> simp

theorem phase2_octet (r v : SymbolIndex) :
    (r.setWidth 8 <<< 4) ||| (v >>> 2).setWidth 8 = r.extractLsb' 0 4 ++ v.extractLsb' 2 4 := by
  ext i hi
  rw [BitVec.getElem_append]
  interval_cases i <;> simp

theorem phase3_octet (r v : SymbolIndex) :
    (r.setWidth 8 <<< 6) ||| v.setWidth 8 = r.extractLsb' 0 2 ++ v := by
  ext i hi
  rw [BitVec.getElem_append]
  interval_cases i <;> simp

section
variable {d : DecoderUnit} (v : SymbolIndex)

theorem accumulate_phase0 (h : d.phase = 0#2) : accumulate v d = ({ d with rem := v, phase := 1#2 }, []) := by
  rw [accumulate, if_pos h]

theorem accumulate_phase1 (h : d.phase = 1#2) :
    accumulate v d = ({ d with rem := v &&& 0xF#6, phase := 2#2 }, [d.rem ++ v.extractLsb' 4 2]) := by
  rw [accumulate, if_neg (by simp [h]), if_pos h, phase1_octet]

theorem accumulate_phase2 (h : d.phase = 2#2) :
    accumulate v d = ({ d with rem := v &&& 0x3#6, phase := 3#2 }, [d.rem.extractLsb' 0 4 ++ v.extractLsb' 2 4]) := by
  rw [accumulate, if_neg (by simp [h]), if_neg (by simp [h]), if_pos h, phase2_octet]

theorem accumulate_phase3 (h : d.phase = 3#2) :
    accumulate v d = ({ d with rem := 0#6, phase := 0#2 }, [d.rem.extractLsb' 0 2 ++ v]) := by
  rw [accumulate, if_neg (by simp [h]), if_neg (by simp [h]), if_neg (by simp [h]), phase3_octet]

end

/-- What phase 1 emits of a symbol and what it keeps in REM are the whole symbol. -/
theorem phase1_symbol (v : SymbolIndex) : v.extractLsb' 4 2 ++ (v &&& 0xF#6).extractLsb' 0 4 = v := by
  ext i hi
  rw [BitVec.getElem_append]
  interval_cases i <;> simp

/-- What phase 2 emits of a symbol and what it keeps in REM are the whole symbol. -/
theorem phase2_symbol (v : SymbolIndex) : v.extractLsb' 2 4 ++ (v &&& 0x3#6).extractLsb' 0 2 = v := by
  ext i hi
  rw [BitVec.getElem_append]
  interval_cases i <;> simp

/-- The bits of a value cut in two are the bits of the two parts. -/
theorem bitString_of_append_eq {m n : Nat} {x : BitVec m} {y : BitVec n} {z : BitVec (m + n)} (h : x ++ y = z) :
    bitString z = bitString x ++ bitString y :=
  h ▸ bitString_append x y

theorem phase_cases (p : BitVec 2) : p = 0#2 ∨ p = 1#2 ∨ p = 2#2 ∨ p = 3#2 := by
  revert p
  decide

/-- The accumulator neither drops nor makes a bit: the held bits and the symbol's are the emitted bits and the bits then held. -/
theorem accumulate_bits (v : SymbolIndex) (d : DecoderUnit) :
    heldBits d ++ bitString v = (accumulate v d).2.flatMap bitString ++ heldBits (accumulate v d).1 := by
  rcases phase_cases d.phase with h | h | h | h
  · simp [accumulate_phase0 v h, heldBits, h]
  · have hoctet : bitString (d.rem ++ v.extractLsb' 4 2 : Octet) = bitString d.rem ++ bitString (v.extractLsb' 4 2) :=
      bitString_append _ _
    have hsymbol := bitString_of_append_eq (phase1_symbol v)
    simp [accumulate_phase1 v h, heldBits, h, hoctet, hsymbol]
  · have hoctet : bitString (d.rem.extractLsb' 0 4 ++ v.extractLsb' 2 4 : Octet)
        = bitString (d.rem.extractLsb' 0 4) ++ bitString (v.extractLsb' 2 4) := bitString_append _ _
    have hsymbol := bitString_of_append_eq (phase2_symbol v)
    simp [accumulate_phase2 v h, heldBits, h, hoctet, hsymbol]
  · have hoctet : bitString (d.rem.extractLsb' 0 2 ++ v : Octet) = bitString (d.rem.extractLsb' 0 2) ++ bitString v :=
      bitString_append _ _
    simp [accumulate_phase3 v h, heldBits, h, hoctet]

/-- One code unit adds its symbol's bits, if it is present. -/
theorem charUnit_bits (c : CodeUnit) (d : DecoderUnit) :
    heldBits d ++ (rev c).toList.flatMap bitString
      = (charUnit c d).2.flatMap bitString ++ heldBits (charUnit c d).1 := by
  unfold charUnit
  cases rev c with
  | none => simp
  | some v => simpa using accumulate_bits v d

/-- A text adds the bits of its present symbols, in order. -/
theorem charsUnit_bits (cs : List CodeUnit) (d : DecoderUnit) :
    heldBits d ++ (cs.filterMap rev).flatMap bitString
      = (charsUnit cs d).2.flatMap bitString ++ heldBits (charsUnit cs d).1 := by
  induction cs generalizing d with
  | nil => simp [charsUnit]
  | cons c cs ih =>
    have hcons : (c :: cs).filterMap rev = (rev c).toList ++ cs.filterMap rev := by
      cases h : rev c <;> simp [h]
    calc heldBits d ++ ((c :: cs).filterMap rev).flatMap bitString
        = (heldBits d ++ (rev c).toList.flatMap bitString) ++ (cs.filterMap rev).flatMap bitString := by
          rw [hcons, List.flatMap_append, List.append_assoc]
      _ = (charUnit c d).2.flatMap bitString
            ++ (heldBits (charUnit c d).1 ++ (cs.filterMap rev).flatMap bitString) := by
          rw [charUnit_bits, List.append_assoc]
      _ = (charsUnit (c :: cs) d).2.flatMap bitString ++ heldBits (charsUnit (c :: cs) d).1 := by
          rw [ih, charsUnit, List.flatMap_append, List.append_assoc]

/-! ### The obligations -/

/-- Settles O25: a run does to each unit what that unit's own commands do, taken on both units from the same state. -/
theorem interleavingCannotMatter : Obligations.InterleavingCannotMatter := by
  intro ws s hs
  obtain ⟨t, tEnc, ht, htEnc, henc, hencResponses⟩ := issue_sameUnit_filter .encoder ws hs (.refl _ s)
  obtain ⟨_, tDec, ht', htDec, hdec, hdecResponses⟩ := issue_sameUnit_filter .decoder ws hs (.refl _ s)
  cases ht.symm.trans ht'
  exact ⟨t, tEnc, tDec, ht, htEnc, htDec, henc, hdec, hencResponses, hdecResponses⟩

/-- Settles O46: INIT leaves no held bits, and each code unit of the text keeps the account of the bits. -/
theorem decoderEmitsTheBitString : Obligations.DecoderEmitsTheBitString := by
  intro s cs
  obtain ⟨t, ht, hdec, -, hout⟩ := issue_decStreamWords cs s
  refine ⟨t, _, ht, hout, ?_, length_heldBits_le t.dec⟩
  rw [hdec, ← charsUnit_bits]
  rfl

/-- Settles O13: a completed run hands its end state to the commands after it. -/
theorem commandsRunInIssueOrder : Obligations.CommandsRunInIssueOrder := by
  intro ws₁ ws₂ s t h
  rw [issue_append, h, andThen_next]

/-- Settles O35: each shift-and-mask expression of the mapper is a 6-bit field of the group word. -/
theorem mapperTakesGroupWordBySixBits : Obligations.MapperTakesGroupWordBySixBits := by
  intro v1 v2 v3
  simp [mapper, mapper_index0 v1 v2 v3, mapper_index1 v1 v2 v3, mapper_index2 v1 v2 v3, mapper_index3 v1 v2 v3]

/-- Settles O36: index by index, then range by range of `REV`; the present code units are the alphabet. -/
theorem tablesAreMutualInverses : Obligations.TablesAreMutualInverses :=
  ⟨rev_alpha, fun _ _ => eq_alpha_of_rev, alphabet, alphabet_nodup, by simp [alphabet], fun _ => mem_alphabet⟩

/-- Settles O8: the port takes the word off the host's list and performs it. -/
theorem stepRunsTheDecodedInstruction : Obligations.StepRunsTheDecodedInstruction := by
  intro s w rest i hin hw
  calc step s = performWord w { s with inputs := rest } := step_cons hin
    _ = exec i { s with inputs := rest } := performWord_instr hw _

/-- Settles O37: `=` is outside every range of `REV`, and `lbChar` is legal by its definition. -/
theorem paddingAndLineBreakAreAbsent : Obligations.PaddingAndLineBreakAreAbsent :=
  ⟨rfl, by decide, rev_lbChar⟩

/-- Settles O40: the code unit has an entry, so it goes to the accumulator, which advances the phase. -/
theorem symbolAIsPresentWithValueZero : Obligations.SymbolAIsPresentWithValueZero := by
  have hrev : rev 0x0041#16 = some 0#6 := by decide
  refine ⟨hrev, fun s t h => ?_⟩
  cases (execDecChar_eq 0x0041#16 s).symm.trans h
  simp [charUnit, hrev, accumulate_phase]

end Sys2Proof.Machine

/-! ## The command words and the records (30_encoding.md)

A command word is its four fields (`commandWord`); the decode procedure is said once for each of its answers, and
`decode_eq_instr_iff_encode` is then the one law of the encoding from which the obligations about words are read off. -/

namespace Sys2Proof.Machine

/-! ### A command word and its four fields (30_encoding.md R70) -/

/-- The word with these fields. -/
def commandWord (u : BitVec 1) (op : BitVec 3) (rsv : BitVec 12) (opnd : BitVec 16) : Word := u ++ op ++ rsv ++ opnd

section
variable (u : BitVec 1) (op : BitVec 3) (rsv : BitVec 12) (opnd : BitVec 16)

@[simp] theorem fieldU_commandWord : fieldU (commandWord u op rsv opnd) = u := by
  rw [fieldU, commandWord, BitVec.extractLsb'_append_eq_of_le (by decide), BitVec.extractLsb'_append_eq_of_le (by decide),
    BitVec.extractLsb'_append_eq_left]

@[simp] theorem fieldOp_commandWord : fieldOp (commandWord u op rsv opnd) = op := by
  rw [fieldOp, commandWord, BitVec.extractLsb'_append_eq_of_le (by decide), BitVec.extractLsb'_append_eq_of_le (by decide),
    BitVec.extractLsb'_append_eq_right]

@[simp] theorem fieldRsv_commandWord : fieldRsv (commandWord u op rsv opnd) = rsv := by
  rw [fieldRsv, commandWord, BitVec.extractLsb'_append_eq_of_le (by decide), BitVec.extractLsb'_append_eq_right]

@[simp] theorem fieldOpnd_commandWord : fieldOpnd (commandWord u op rsv opnd) = opnd := by
  rw [fieldOpnd, commandWord, BitVec.extractLsb'_append_eq_right]

end

/-- The top four bits of a word are `U` and `OP`. -/
theorem opcode_eq (w : Word) : w.extractLsb' 28 4 = fieldU w ++ fieldOp w :=
  (BitVec.extractLsb'_append_extractLsb'_eq_extractLsb' (x := w) (start₁ := 28) (len₁ := 3) (len₂ := 1) rfl).symm

/-- No bit of a word lies outside the four fields. -/
theorem commandWord_fields (w : Word) : commandWord (fieldU w) (fieldOp w) (fieldRsv w) (fieldOpnd w) = w := by
  have hhigh : w.extractLsb' 28 4 ++ fieldRsv w = w.extractLsb' 16 16 :=
    BitVec.extractLsb'_append_extractLsb'_eq_extractLsb' rfl
  have hall : w.extractLsb' 16 16 ++ fieldOpnd w = w :=
    (BitVec.extractLsb'_append_extractLsb'_eq_extractLsb' rfl).trans BitVec.extractLsb'_eq_self
  rw [commandWord, ← opcode_eq, hhigh, hall]

/-! ### The fields of an instruction's command word (30_encoding.md R75, R83) -/

/-- The bit `U` that selects a unit (30_encoding.md R71). -/
def unitBit : CodecUnit → BitVec 1
  | .encoder => 0#1
  | .decoder => 1#1

theorem unitOf_eq_iff (w : Word) (u : CodecUnit) : unitOf w = u ↔ fieldU w = unitBit u := by
  unfold unitOf
  generalize fieldU w = b
  cases u <;> revert b <;> decide

/-- The field `OP` of an instruction's row. -/
def instrOp : Instr → BitVec 3
  | .encInit _ => 0#3
  | .encByte _ => 1#3
  | .encFlush => 2#3
  | .encRdstat => 3#3
  | .encRdcfg => 4#3
  | .encRdpend => 5#3
  | .decInit => 0#3
  | .decChar _ => 1#3
  | .decRdstat => 3#3

/-- The field `OPND`: the operand, in its low bits where it is an octet, and 0 where there is none. -/
def instrOpnd : Instr → BitVec 16
  | .encInit ll => ll
  | .encByte b => b.setWidth 16
  | .encFlush => 0#16
  | .encRdstat => 0#16
  | .encRdcfg => 0#16
  | .encRdpend => 0#16
  | .decInit => 0#16
  | .decChar c => c
  | .decRdstat => 0#16

/-- An operand put into a word whose low bits are 0 stands behind the bits above it. -/
theorem append_zero_or_setWidth {m n : Nat} (high : BitVec m) (x : BitVec n) :
    (high ++ 0#n) ||| x.setWidth (m + n) = high ++ x := by
  rw [BitVec.setWidth_eq_append (Nat.le_add_left n m)]
  ext i h
  simp [BitVec.getElem_append]

/-- The match of a row with a 16-bit operand in its low half. -/
theorem or_operand_eq_commandWord (m : Word) (u : BitVec 1) (op : BitVec 3) (hm : m = commandWord u op 0#12 0#16)
    (opnd : BitVec 16) : m ||| opnd.setWidth 32 = commandWord u op 0#12 opnd := by
  rw [hm]
  exact append_zero_or_setWidth (u ++ op ++ 0#12) opnd

/-- The assembler's command word, field by field. -/
theorem encode_eq_commandWord (i : Instr) : encode i = commandWord (unitBit i.unit) (instrOp i) 0#12 (instrOpnd i) := by
  cases i with
  | encInit ll => exact or_operand_eq_commandWord 0x00000000#32 0#1 0#3 (by decide) ll
  | encByte b =>
    have hwidth : b.setWidth 32 = (b.setWidth 16).setWidth 32 := (BitVec.setWidth_setWidth (by decide)).symm
    rw [encode, hwidth]
    exact or_operand_eq_commandWord 0x10000000#32 0#1 1#3 (by decide) (b.setWidth 16)
  | decChar c => exact or_operand_eq_commandWord 0x90000000#32 1#1 1#3 (by decide) c
  | encFlush | encRdstat | encRdcfg | encRdpend | decInit | decRdstat => rfl

/-- A word with the fields of an instruction is its command word. -/
theorem encode_eq_iff (i : Instr) (w : Word) :
    encode i = w ↔ unitOf w = i.unit ∧ fieldOp w = instrOp i ∧ fieldRsv w = 0#12 ∧ fieldOpnd w = instrOpnd i := by
  rw [unitOf_eq_iff]
  constructor
  · rintro rfl
    simp [encode_eq_commandWord]
  · rintro ⟨hu, hop, hrsv, hopnd⟩
    rw [encode_eq_commandWord, ← hu, ← hop, ← hrsv, ← hopnd, commandWord_fields]

/-! ### The rows of the opcode map (30_encoding.md R75) -/

/-- An octet is read back from the low half of its operand field. -/
theorem operandB_setWidth (b : Octet) : operandB (b.setWidth 16) = b := by
  rw [operandB, BitVec.extractLsb'_setWidth_of_le (by decide), BitVec.extractLsb'_eq_self]

/-- An operand field with a zero high half is the octet in its low half. -/
theorem setWidth_operandB {opnd : BitVec 16} (h : opnd.extractLsb' 8 8 = 0#8) : (operandB opnd).setWidth 16 = opnd := by
  have hsplit : opnd.extractLsb' 8 8 ++ operandB opnd = opnd :=
    (BitVec.extractLsb'_append_extractLsb'_eq_extractLsb' rfl).trans BitVec.extractLsb'_eq_self
  rw [h] at hsplit
  exact (BitVec.setWidth_eq_append (by decide)).trans hsplit

/-- The fields of an instruction's command word pass every check of the decode procedure and select its row. -/
theorem dispatchRow_instr (i : Instr) :
    reservedOp i.unit (instrOp i) = false ∧ operandBitsBad i.unit (instrOp i) (instrOpnd i) = false
      ∧ dispatchRow i.unit (instrOp i) (instrOpnd i) = .instr i := by
  cases i with
  | encInit ll => exact ⟨rfl, rfl, rfl⟩
  | encByte b =>
    have hhigh : (b.setWidth 16).extractLsb' 8 8 = 0#8 := by
      rw [BitVec.setWidth_eq_append (by decide)]
      exact BitVec.extractLsb'_append_eq_left
    exact ⟨rfl, by simp [operandBitsBad, Instr.unit, instrOp, instrOpnd, hhigh],
      congrArg (fun b => Decoded.instr (.encByte b)) (operandB_setWidth b)⟩
  | decChar c => exact ⟨rfl, rfl, rfl⟩
  | encFlush | encRdstat | encRdcfg | encRdpend | decInit | decRdstat => exact ⟨rfl, rfl, rfl⟩

/-- The row that is selected is the row of `U` and `OP`. -/
theorem opcode_of_dispatchRow {u : CodecUnit} {op : BitVec 3} {opnd : BitVec 16} {i : Instr}
    (h : dispatchRow u op opnd = .instr i) : i.unit = u ∧ instrOp i = op := by
  unfold dispatchRow at h
  split at h <;> cases h
  all_goals
    rename_i hop
    exact ⟨rfl, (BitVec.eq_of_toNat_eq hop).symm⟩

/-- With no must-be-0 operand bit set, the row's instruction holds the whole operand field. -/
theorem operand_of_dispatchRow {i : Instr} {opnd : BitVec 16} (h : dispatchRow i.unit (instrOp i) opnd = .instr i)
    (hbits : operandBitsBad i.unit (instrOp i) opnd = false) : opnd = instrOpnd i := by
  cases i with
  | encInit ll => cases h; rfl
  | encByte b =>
    cases h
    exact (setWidth_operandB (by simpa [operandBitsBad, Instr.unit, instrOp] using hbits)).symm
  | decChar c => cases h; rfl
  | encFlush | encRdstat | encRdcfg | encRdpend | decInit | decRdstat =>
    simpa [operandBitsBad, Instr.unit, instrOp, instrOpnd] using hbits

/-- One instruction of each row. -/
def rowInstrs : List Instr :=
  [.encInit 0#16, .encByte 0#8, .encFlush, .encRdstat, .encRdcfg, .encRdpend, .decInit, .decChar 0#16, .decRdstat]

/-- An opcode that is not reserved is the opcode of a row. -/
theorem exists_row_of_not_reserved {u : CodecUnit} {op : BitVec 3} (h : reservedOp u op = false) :
    ∃ i ∈ rowInstrs, i.unit = u ∧ instrOp i = op := by
  cases u <;> revert op <;> decide

/-- An opcode that is not reserved selects a row, whatever the operand field holds. -/
theorem exists_dispatchRow {u : CodecUnit} {op : BitVec 3} (h : reservedOp u op = false) (opnd : BitVec 16) :
    ∃ i, dispatchRow u op opnd = .instr i := by
  obtain ⟨i, -, rfl, rfl⟩ := exists_row_of_not_reserved h
  cases i <;> exact ⟨_, rfl⟩

/-! ### The answers of the decode procedure (30_encoding.md R88) -/

theorem decode_eq_rsvdOp_iff (w : Word) (u : CodecUnit) :
    decode w = .usageError u .rsvdOp ↔ unitOf w = u ∧ reservedOp u (fieldOp w) = true := by
  by_cases hu : unitOf w = u
  · subst hu
    unfold decode
    split_ifs with hop
    · simp [hop]
    · simp [hop]
    · simp [hop]
    · obtain ⟨i, hi⟩ := exists_dispatchRow (Bool.eq_false_of_not_eq_true hop) (fieldOpnd w)
      simp [hop, hi]
  · exact iff_of_false (fun h => hu ((decode_unit w).2 _ _ h).symm) fun h => hu h.1

theorem decode_eq_rsvdField_iff (w : Word) (u : CodecUnit) :
    decode w = .usageError u .rsvdField ↔
      unitOf w = u ∧ reservedOp u (fieldOp w) = false
        ∧ (fieldRsv w ≠ 0#12 ∨ operandBitsBad u (fieldOp w) (fieldOpnd w) = true) := by
  by_cases hu : unitOf w = u
  · subst hu
    unfold decode
    split_ifs with hop hrsv hbits
    · simp [hop]
    · have hne : fieldRsv w ≠ 0#12 := by simpa using hrsv
      simp [hop, hne]
    · simp [hop, hbits]
    · obtain ⟨i, hi⟩ := exists_dispatchRow (Bool.eq_false_of_not_eq_true hop) (fieldOpnd w)
      simpa [hop, hi, hbits] using hrsv
  · exact iff_of_false (fun h => hu ((decode_unit w).2 _ _ h).symm) fun h => hu h.1

theorem decode_eq_instr_iff (w : Word) (i : Instr) :
    decode w = .instr i ↔
      unitOf w = i.unit ∧ fieldOp w = instrOp i ∧ fieldRsv w = 0#12 ∧ fieldOpnd w = instrOpnd i := by
  constructor
  · intro h
    unfold decode at h
    split_ifs at h with hop hrsv hbits
    obtain ⟨hunit, hrow⟩ := opcode_of_dispatchRow h
    rw [← hunit, ← hrow] at h hbits
    exact ⟨hunit.symm, hrow.symm, by simpa using hrsv, operand_of_dispatchRow h (by simpa using hbits)⟩
  · rintro ⟨hu, hop, hrsv, hopnd⟩
    obtain ⟨hassigned, hbits, hrow⟩ := dispatchRow_instr i
    simp [decode, hu, hop, hrsv, hopnd, hassigned, hbits, hrow]

/-- The law of the encoding: a word decodes to an instruction exactly when it is the instruction's command word. -/
theorem decode_eq_instr_iff_encode (w : Word) (i : Instr) : decode w = .instr i ↔ encode i = w :=
  (decode_eq_instr_iff w i).trans (encode_eq_iff i w).symm

/-! ### Mask and match (30_encoding.md R75) -/

theorem encode_matchesRow (i : Instr) : Laws.MatchesRow.Statement i := by
  cases i with
  | encInit ll => exact Laws.MatchesRow.encInit ll
  | encByte b => exact Laws.MatchesRow.encByte b
  | encFlush => exact Laws.MatchesRow.encFlush
  | encRdstat => exact Laws.MatchesRow.encRdstat
  | encRdcfg => exact Laws.MatchesRow.encRdcfg
  | encRdpend => exact Laws.MatchesRow.encRdpend
  | decInit => exact Laws.MatchesRow.decInit
  | decChar c => exact Laws.MatchesRow.decChar c
  | decRdstat => exact Laws.MatchesRow.decRdstat

/-- A word is its bits above an operand field and the operand. -/
theorem and_mask_or_operand (n : Nat) (w : Word) :
    (w &&& ~~~(BitVec.allOnes n).setWidth 32) ||| (w.extractLsb' 0 n).setWidth 32 = w := by
  ext i hi
  by_cases h : i < n <;> simp [h, hi]

/-- Where a word that matches the row of `i` is the command word of `i`, it matches the row exactly when it decodes to `i`. -/
theorem match_iff_decode {w : Word} (i : Instr) (h : w &&& Laws.rowMask i = Laws.rowMatch i → encode i = w) :
    w &&& Laws.rowMask i = Laws.rowMatch i ↔ decode w = .instr i := by
  rw [decode_eq_instr_iff_encode]
  exact ⟨h, fun hw => hw ▸ (encode_matchesRow i).1⟩

/-- A row with an operand: the word is the match and its own operand field. -/
theorem match_or_operand {w m : Word} (n : Nat) (h : w &&& ~~~(BitVec.allOnes n).setWidth 32 = m) :
    m ||| (w.extractLsb' 0 n).setWidth 32 = w := by
  rw [← h, and_mask_or_operand]

/-- A row without an operand: the word is the match. -/
theorem match_eq_of_fullMask {w m : Word} (h : w &&& 0xFFFFFFFF#32 = m) : m = w :=
  h.symm.trans BitVec.and_allOnes

/-! ### Reserved opcodes and must-be-0 bits by the top four bits (30_encoding.md R74, R76) -/

theorem reservedOp_encoder_iff (u : BitVec 1) (op : BitVec 3) :
    u = unitBit .encoder ∧ reservedOp .encoder op = true ↔ u ++ op = 6#4 ∨ u ++ op = 7#4 := by
  revert u op
  decide

theorem reservedOp_decoder_iff (u : BitVec 1) (op : BitVec 3) :
    u = unitBit .decoder ∧ reservedOp .decoder op = true ↔
      u ++ op = 10#4 ∨ u ++ op = 12#4 ∨ u ++ op = 13#4 ∨ u ++ op = 14#4 ∨ u ++ op = 15#4 := by
  revert u op
  decide

theorem assignedOp_encoder_iff (u : BitVec 1) (op : BitVec 3) :
    u = unitBit .encoder ∧ reservedOp .encoder op = false ↔ u ++ op ∈ [0#4, 1#4, 2#4, 3#4, 4#4, 5#4] := by
  revert u op
  decide

theorem assignedOp_decoder_iff (u : BitVec 1) (op : BitVec 3) :
    u = unitBit .decoder ∧ reservedOp .decoder op = false ↔ u ++ op ∈ [8#4, 9#4, 11#4] := by
  revert u op
  decide

theorem operandBitsBad_encoder_iff (op : BitVec 3) (opnd : BitVec 16) :
    operandBitsBad .encoder op opnd = true ↔
      (unitBit .encoder ++ op = 1#4 ∧ opnd.extractLsb' 8 8 ≠ 0#8)
        ∨ (unitBit .encoder ++ op ∈ [2#4, 3#4, 4#4, 5#4] ∧ opnd ≠ 0#16) := by
  have hbyte : ∀ op : BitVec 3, unitBit .encoder ++ op = 1#4 ↔ op = 1#3 := by decide
  have hnone : ∀ op : BitVec 3, unitBit .encoder ++ op ∈ [2#4, 3#4, 4#4, 5#4] ↔
      op = 2#3 ∨ op = 3#3 ∨ op = 4#3 ∨ op = 5#3 := by decide
  simp [operandBitsBad, hbyte, hnone, or_assoc]

theorem operandBitsBad_decoder_iff (op : BitVec 3) (opnd : BitVec 16) :
    operandBitsBad .decoder op opnd = true ↔ unitBit .decoder ++ op ∈ [8#4, 11#4] ∧ opnd ≠ 0#16 := by
  have hnone : ∀ op : BitVec 3, unitBit .decoder ++ op ∈ [8#4, 11#4] ↔ op = 0#3 ∨ op = 3#3 := by decide
  simp [operandBitsBad, hnone]

/-- The high half of the operand field, as bits of the word. -/
theorem extractLsb'_fieldOpnd (w : Word) : (fieldOpnd w).extractLsb' 8 8 = w.extractLsb' 8 8 :=
  BitVec.extractLsb'_extractLsb'_of_le (by decide)

/-- The unit is the decoder exactly when bit 31 is 1. -/
theorem unitOf_eq_decoder_iff (w : Word) : unitOf w = .decoder ↔ w.getLsbD 31 = true := by
  have hbit : w.getLsbD 31 = (fieldU w).getLsbD 0 := by simp [fieldU]
  rw [unitOf_eq_iff, hbit]
  generalize fieldU w = u
  revert u
  decide

/-! ### Source lines (30_encoding.md R85, R86) -/

/-- A line that is well-formed exactly where its operands are in range has its words there, and elsewhere none. -/
theorem assemble_eq_ite {l : SourceLine} {inRange : Prop} [Decidable inRange] {ws : List Word}
    (hwf : l.wellFormed = true ↔ inRange) (hws : inRange → l.wellFormed = true → assemble l = some ws) :
    assemble l = if inRange then some ws else none := by
  split_ifs with h
  · exact hws h (hwf.2 h)
  · exact assemble_of_illFormed (Bool.eq_false_of_not_eq_true fun hl => h (hwf.1 hl))

theorem assemble_encInit (ll : Nat) :
    assemble (.encInit ll) = if ll ≤ 65535 then some [0x00000000#32 ||| BitVec.ofNat 32 ll] else none :=
  assemble_eq_ite decide_eq_true_iff fun h hwf => by rw [assemble, if_pos hwf, encode_encInit_ofNat h]

theorem assemble_encByte (b : Nat) :
    assemble (.encByte b) = if b ≤ 255 then some [0x10000000#32 ||| BitVec.ofNat 32 b] else none :=
  assemble_eq_ite decide_eq_true_iff fun h hwf => by rw [assemble, if_pos hwf, encode_encByte_ofNat h]

theorem assemble_decChar (c : Nat) :
    assemble (.decChar c) = if c ≤ 0xFFFF then some [0x90000000#32 ||| BitVec.ofNat 32 c] else none :=
  assemble_eq_ite decide_eq_true_iff fun h hwf => by rw [assemble, if_pos hwf, encode_decChar_ofNat h]

theorem assemble_word (w : Nat) : assemble (.word w) = if w < 2 ^ 32 then some [BitVec.ofNat 32 w] else none :=
  assemble_eq_ite decide_eq_true_iff fun _ hwf => if_pos hwf

theorem assemble_encWrite (bs : List Nat) :
    assemble (.encWrite bs) =
      if ∀ b ∈ bs, b ≤ 255 then some (bs.map fun b => 0x10000000#32 ||| BitVec.ofNat 32 b) else none :=
  assemble_eq_ite (by simp [SourceLine.wellFormed]) fun h hwf => by rw [assemble, if_pos hwf, encWriteWords_ofNat h]

theorem assemble_encEncode (bs : List Nat) :
    assemble (.encEncode bs) =
      if ∀ b ∈ bs, b ≤ 255 then some ((bs.map fun b => 0x10000000#32 ||| BitVec.ofNat 32 b) ++ [0x20000000#32]) else none :=
  assemble_eq_ite (by simp [SourceLine.wellFormed]) fun h hwf => by
    rw [assemble, if_pos hwf, encEncodeWords, encWriteWords_ofNat h, encode]

theorem assemble_decWrite (cs : List Nat) :
    assemble (.decWrite cs) =
      if ∀ c ∈ cs, c ≤ 0xFFFF then some (cs.map fun c => 0x90000000#32 ||| BitVec.ofNat 32 c) else none :=
  assemble_eq_ite (by simp [SourceLine.wellFormed]) fun h hwf => by rw [assemble, if_pos hwf, decWriteWords_ofNat h]

/-- A word among the words of `enc.write` is an ENC.BYTE. -/
theorem exists_encode_of_mem_encWriteWords {bs : List Octet} {w : Word} (h : w ∈ encWriteWords bs) : ∃ i, encode i = w := by
  obtain ⟨b, -, hb⟩ := List.mem_map.1 h
  exact ⟨_, hb⟩

/-- Every word of a line other than `.word` is the command word of an instruction. -/
theorem exists_encode_of_mem_assemble {l : SourceLine} (hl : ∀ w, l ≠ .word w) {ws : List Word} (h : assemble l = some ws)
    {w : Word} (hw : w ∈ ws) : ∃ i, encode i = w := by
  unfold assemble at h
  split_ifs at h
  cases h
  cases l with
  | word n => exact absurd rfl (hl n)
  | encWrite bs => exact exists_encode_of_mem_encWriteWords hw
  | encEncode bs =>
    rcases List.mem_append.1 hw with hw | hw
    · exact exists_encode_of_mem_encWriteWords hw
    · exact ⟨.encFlush, (List.mem_singleton.1 hw).symm⟩
  | decWrite cs =>
    obtain ⟨c, -, hc⟩ := List.mem_map.1 hw
    exact ⟨_, hc⟩
  | encInit | encByte | encFlush | encRdstat | encRdcfg | encRdpend | decInit | decChar | decRdstat =>
    exact ⟨_, (List.mem_singleton.1 hw).symm⟩

/-! ### The obligations about words -/

/-- Settles O2: the fields of a command word are those of its instruction. -/
theorem decodeOfEncodeIsTheInstruction : Obligations.DecodeOfEncodeIsTheInstruction :=
  fun i => (decode_eq_instr_iff_encode _ i).2 rfl

/-- Settles O3: no bit of a word lies outside its four fields, and decoding drops none of them. -/
theorem encodeOfDecodeIsTheWord : Obligations.EncodeOfDecodeIsTheWord :=
  fun w i => (decode_eq_instr_iff_encode w i).1

/-- Settles O4: row by row, a word that matches is the row's command word for the word's own operand field. -/
theorem wordIsRowExactlyWhenMaskMatches : Obligations.WordIsRowExactlyWhenMaskMatches := fun w =>
  ⟨match_iff_decode (.encInit (w.extractLsb' 0 16)) (match_or_operand 16),
    match_iff_decode (.encByte (w.extractLsb' 0 8)) (match_or_operand 8),
    match_iff_decode .encFlush match_eq_of_fullMask,
    match_iff_decode .encRdstat match_eq_of_fullMask,
    match_iff_decode .encRdcfg match_eq_of_fullMask,
    match_iff_decode .encRdpend match_eq_of_fullMask,
    match_iff_decode .decInit match_eq_of_fullMask,
    match_iff_decode (.decChar (w.extractLsb' 0 16)) (match_or_operand 16),
    match_iff_decode .decRdstat match_eq_of_fullMask⟩

/-- Settles O5: the reserved opcodes of each unit, read off the top four bits. -/
theorem reservedOpcodeRaisesRsvdOp : Obligations.ReservedOpcodeRaisesRsvdOp := by
  intro w
  simp only [decode_eq_rsvdOp_iff, unitOf_eq_iff, opcode_eq, reservedOp_encoder_iff, reservedOp_decoder_iff, and_self]

/-- Settles O6: the assigned opcodes and the must-be-0 bits of each unit, read off the top four bits. -/
theorem mustBeZeroBitsRaiseRsvdField : Obligations.MustBeZeroBitsRaiseRsvdField := by
  intro w
  simp only [decode_eq_rsvdField_iff, unitOf_eq_iff, opcode_eq, ← and_assoc]
  constructor
  · rw [assignedOp_encoder_iff]
    refine and_congr_right fun h => ?_
    obtain ⟨hu, -⟩ := (assignedOp_encoder_iff _ _).2 h
    rw [operandBitsBad_encoder_iff, extractLsb'_fieldOpnd, hu]
    rfl
  · rw [assignedOp_decoder_iff]
    refine and_congr_right fun h => ?_
    obtain ⟨hu, -⟩ := (assignedOp_decoder_iff _ _).2 h
    rw [operandBitsBad_decoder_iff, hu]
    rfl

/-- Settles O7: line by line; and a line's words are command words of instructions, which decode to them. -/
theorem assemblyMakesOnlyLegalWords : Obligations.AssemblyMakesOnlyLegalWords := by
  refine ⟨assemble_encInit, assemble_encByte, rfl, rfl, rfl, rfl, rfl, assemble_decChar, rfl, assemble_word, assemble_encWrite,
    assemble_encEncode, assemble_decWrite, fun l hl ws h w hw => ?_⟩
  obtain ⟨i, hi⟩ := exists_encode_of_mem_assemble hl h hw
  exact ⟨i, (decode_eq_instr_iff_encode w i).2 hi⟩

/-- Settles O1: each word is the command word of its instruction. -/
theorem writtenWordsDecode : Obligations.WrittenWordsDecode := by
  have h : ∀ i, decode (encode i) = .instr i := decodeOfEncodeIsTheInstruction
  exact ⟨h (.encInit 76#16), h (.encByte 0x6C#8), h .encFlush, h .encRdstat, h .encRdcfg, h .encRdpend, h .decInit,
    h (.decChar 0x0141#16), h .decRdstat⟩

/-- Settles O9: the port performs the word, which is a usage error on the unit of bit 31, and never AFTER_FLUSH. -/
theorem illegalWordOnlyRecordsItsError : Obligations.IllegalWordOnlyRecordsItsError := by
  intro s w rest u e hin hw
  have hunit := (decode_unit w).2 u e hw
  have hstep : step s = .next (raiseUsageError u e { s with inputs := rest }) :=
    (step_cons hin).trans (performWord_usageError hw _)
  refine ⟨hunit ▸ unitOf_eq_decoder_iff w, errorCode e, ?_, ?_⟩
  · cases e with
    | rsvdOp => exact .inl ⟨rfl, rfl⟩
    | rsvdField => exact .inr ⟨rfl, rfl⟩
    | afterFlush => exact absurd hw (decode_ne_afterFlush w u)
  · rw [hstep, raiseUsageError_eq]
    cases u <;> simp [stickyError, failRecord]

/-! ### The packed output of a group (30_encoding.md R77) -/

/-- Four octets, the first lowest, below a zero octet. -/
theorem packOctets_four (a b c d : Octet) : packOctets [a, b, c, d] = 0#8 ++ (d ++ c ++ b ++ a) := by
  have hpad : 0#8 ++ (d ++ c ++ b ++ a) = (d ++ c ++ b ++ a).setWidth 40 := (BitVec.setWidth_eq_append (by decide)).symm
  rw [hpad, BitVec.setWidth_append_eq_shiftLeft_setWidth_or, BitVec.setWidth_append_eq_shiftLeft_setWidth_or,
    BitVec.setWidth_append_eq_shiftLeft_setWidth_or]
  simp [packOctets]

/-- A line break and four octets, the break lowest. -/
theorem packOctets_five (a b c d e : Octet) : packOctets [a, b, c, d, e] = e ++ d ++ c ++ b ++ a := by
  have hwidth : (e ++ d ++ c ++ b ++ a).setWidth 40 = e ++ d ++ c ++ b ++ a := BitVec.setWidth_eq _
  rw [← hwidth, BitVec.setWidth_append_eq_shiftLeft_setWidth_or, BitVec.setWidth_append_eq_shiftLeft_setWidth_or,
    BitVec.setWidth_append_eq_shiftLeft_setWidth_or, BitVec.setWidth_append_eq_shiftLeft_setWidth_or]
  simp [packOctets]

/-- The zero octet above four octets, with the concatenation read from the other end. -/
theorem zero_append_four (a b c d : Octet) : 0#8 ++ (d ++ c ++ b ++ a) = 0#8 ++ d ++ c ++ b ++ a := by
  rw [← packOctets_four, ← packOctets_five]
  simp [packOctets]

/-! ### The mapper by the bit fields of its octets (40_encoder.md R100) -/

theorem groupWord_field0 (v1 v2 v3 : Octet) : (v1 ++ v2 ++ v3).extractLsb' 18 6 = v1.extractLsb' 2 6 := by
  rw [BitVec.extractLsb'_append_eq_of_le (by decide), BitVec.extractLsb'_append_eq_of_le (by decide)]

theorem groupWord_field1 (v1 v2 v3 : Octet) :
    (v1 ++ v2 ++ v3).extractLsb' 12 6 = v1.extractLsb' 0 2 ++ v2.extractLsb' 4 4 := by
  rw [BitVec.extractLsb'_append_eq_of_le (by decide), BitVec.extractLsb'_append_eq_ite]
  rfl

theorem groupWord_field2 (v1 v2 v3 : Octet) :
    (v1 ++ v2 ++ v3).extractLsb' 6 6 = v2.extractLsb' 0 4 ++ v3.extractLsb' 6 2 := by
  rw [BitVec.extractLsb'_append_eq_ite]
  exact congrArg (· ++ v3.extractLsb' 6 2) (BitVec.extractLsb'_append_eq_of_add_le (by decide))

theorem groupWord_field3 (v1 v2 v3 : Octet) : (v1 ++ v2 ++ v3).extractLsb' 0 6 = v3.extractLsb' 0 6 :=
  BitVec.extractLsb'_append_eq_of_add_le (by decide)

theorem mapper_bitFields (v1 v2 v3 : Octet) :
    mapper v1 v2 v3 =
      [alpha (v1.extractLsb' 2 6), alpha (v1.extractLsb' 0 2 ++ v2.extractLsb' 4 4),
       alpha (v2.extractLsb' 0 4 ++ v3.extractLsb' 6 2), alpha (v3.extractLsb' 0 6)] := by
  rw [mapper, mapper_index0 v1 v2 v3, mapper_index1 v1 v2 v3, mapper_index2 v1 v2 v3, mapper_index3 v1 v2 v3,
    groupWord_field0, groupWord_field1, groupWord_field2, groupWord_field3]

/-! ### A group with and without a line break (40_encoder.md R101, R102) -/

/-- What a group emits after its line break, if one is due: k symbols, then padding. -/
def groupOctets (v1 v2 v3 : Octet) (k : Nat) : List Octet := (mapper v1 v2 v3).take k ++ List.replicate (4 - k) pad

theorem groupOctets_four (v1 v2 v3 : Octet) :
    groupOctets v1 v2 v3 4 =
      [alpha (v1.extractLsb' 2 6), alpha (v1.extractLsb' 0 2 ++ v2.extractLsb' 4 4),
       alpha (v2.extractLsb' 0 4 ++ v3.extractLsb' 6 2), alpha (v3.extractLsb' 0 6)] := by
  rw [groupOctets, mapper_bitFields]
  rfl

theorem groupOctets_three (v1 v2 : Octet) :
    groupOctets v1 v2 0x00#8 3 =
      [alpha (v1.extractLsb' 2 6), alpha (v1.extractLsb' 0 2 ++ v2.extractLsb' 4 4),
       alpha (v2.extractLsb' 0 4 ++ 0#2), 0x3D#8] := by
  rw [groupOctets, mapper_bitFields, BitVec.extractLsb'_zero]
  rfl

theorem groupOctets_two (v1 : Octet) :
    groupOctets v1 0x00#8 0x00#8 2 = [alpha (v1.extractLsb' 2 6), alpha (v1.extractLsb' 0 2 ++ 0#4), 0x3D#8, 0x3D#8] := by
  rw [groupOctets, mapper_bitFields, BitVec.extractLsb'_zero]
  rfl

section
variable {e : EncoderUnit} (lb : Octet)

theorem flushGroup_none (h : e.pcnt = 0#2) : flushGroup lb e = (e, []) := by
  rw [flushGroup, if_neg (by simp [h]), if_neg (by simp [h])]

theorem flushGroup_one (h : e.pcnt = 1#2) : flushGroup lb e = group lb e.pb0 0x00#8 0x00#8 2 e := by
  rw [flushGroup, if_neg (by simp [h]), if_pos h]

theorem flushGroup_two (h : e.pcnt = 2#2) : flushGroup lb e = group lb e.pb0 e.pb1 0x00#8 3 e := by
  rw [flushGroup, if_pos h]

end

/-- The condition of a line break before a group (40_encoder.md R101). -/
abbrev BreakDue (e : EncoderUnit) : Prop := e.ll ≠ 0#16 ∧ e.ll.toNat ≤ e.col.toNat

/-- The record of four octets. -/
theorem successRecord_four (c0 c1 c2 c3 : Octet) :
    successRecord [c0, c1, c2, c3] 0#32 = outputRecord 4#3 (0#8 ++ (c3 ++ c2 ++ c1 ++ c0)) := by
  rw [successRecord, packOctets_four]
  rfl

/-- The record of four octets after a line break. -/
theorem successRecord_five (lb c0 c1 c2 c3 : Octet) :
    successRecord [lb, c0, c1, c2, c3] 0#32 = outputRecord 5#3 (c3 ++ c2 ++ c1 ++ c0 ++ lb) := by
  rw [successRecord, packOctets_five]
  rfl

section
variable {e : EncoderUnit} {v1 v2 v3 : Octet} {k : Nat} {c0 c1 c2 c3 : Octet} (lb : Octet)
  (hoctets : groupOctets v1 v2 v3 k = [c0, c1, c2, c3])
include hoctets

/-- After a line break, `COL` counts from the break, and the record has the break lowest. -/
theorem group_of_breakDue (h : BreakDue e) :
    (group lb v1 v2 v3 k e).1 = { e with col := 4#17 }
      ∧ successRecord (group lb v1 v2 v3 k e).2 0#32 = outputRecord 5#3 (c3 ++ c2 ++ c1 ++ c0 ++ lb) := by
  have hdue := (breakDue_iff e).2 h
  have hout : (group lb v1 v2 v3 k e).2 = lb :: groupOctets v1 v2 v3 k := by simp [group_out, hdue, groupOctets]
  refine ⟨by simp [group_unit, hdue], ?_⟩
  rw [hout, hoctets, successRecord_five]

/-- Without a line break, `COL` advances by 4. -/
theorem group_of_not_breakDue (h : ¬BreakDue e) :
    (group lb v1 v2 v3 k e).1 = { e with col := e.col + 4#17 }
      ∧ successRecord (group lb v1 v2 v3 k e).2 0#32 = outputRecord 4#3 (0#8 ++ (c3 ++ c2 ++ c1 ++ c0)) := by
  have hdue : ¬breakDue e = true := fun hd => h ((breakDue_iff e).1 hd)
  have hout : (group lb v1 v2 v3 k e).2 = groupOctets v1 v2 v3 k := by simp [group_out, hdue, groupOctets]
  refine ⟨by simp [group_unit, hdue], ?_⟩
  rw [hout, hoctets, successRecord_four]

end

/-- With two bytes pending, ENC.BYTE emits their group with its byte (40_encoder.md R111). -/
theorem exec_encByte_group (b : Octet) {s : State} (hf : s.enc.flushed = false) (hp : s.enc.pcnt = 2#2) :
    exec (.encByte b) s = .next
      (respond .encoder (successRecord (group lbChar s.enc.pb0 s.enc.pb1 b 4 s.enc).2 0#32)
        (withEnc (clearPending (group lbChar s.enc.pb0 s.enc.pb1 b 4 s.enc).1) s)) := by
  rw [exec, execEncByte, encByteWith_eq lbChar b s hf (by simp [hp]), byteUnit, if_pos hp]

theorem exec_encFlush {s : State} (hf : s.enc.flushed = false) (hp : s.enc.pcnt ≠ 3#2) :
    exec .encFlush s = .next
      (respond .encoder (successRecord (flushGroup lbChar s.enc).2 0#32)
        (withEnc { clearPending (flushGroup lbChar s.enc).1 with flushed := true } s)) :=
  encFlushWith_eq lbChar s hf hp

/-- ENC.FLUSH of a group of four octets: the record and the unit, after a line break and without one (40_encoder.md R112). -/
theorem exec_encFlush_group {s : State} (hf : s.enc.flushed = false) (hp : s.enc.pcnt ≠ 3#2) {v2 : Octet} {k : Nat}
    {c0 c1 c2 c3 : Octet} (hgroup : flushGroup lbChar s.enc = group lbChar s.enc.pb0 v2 0x00#8 k s.enc)
    (hoctets : groupOctets s.enc.pb0 v2 0x00#8 k = [c0, c1, c2, c3]) :
    (BreakDue s.enc →
      exec .encFlush s = .next
        ({ s with enc := { s.enc with pcnt := 0#2, pb0 := 0#8, pb1 := 0#8, col := 4#17, flushed := true } }.answered .encoder
          (outputRecord 5#3 (c3 ++ c2 ++ c1 ++ c0 ++ lbChar))))
    ∧ (¬BreakDue s.enc →
      exec .encFlush s = .next
        ({ s with enc := { s.enc with pcnt := 0#2, pb0 := 0#8, pb1 := 0#8, col := s.enc.col + 4#17, flushed := true } }.answered
          .encoder (outputRecord 4#3 (0#8 ++ (c3 ++ c2 ++ c1 ++ c0))))) := by
  refine ⟨fun hdue => ?_, fun hdue => ?_⟩
  · obtain ⟨hunit, hrecord⟩ := group_of_breakDue lbChar hoctets hdue
    rw [exec_encFlush hf hp, hgroup, hunit, hrecord]
    rfl
  · obtain ⟨hunit, hrecord⟩ := group_of_not_breakDue lbChar hoctets hdue
    rw [exec_encFlush hf hp, hgroup, hunit, hrecord]
    rfl

/-! ### The readback words (30_encoding.md R78 to R81) -/

/-- `ENC.RDSTAT` (30_encoding.md R78). -/
theorem encStatusWord_fields (e : EncoderUnit) :
    (encStatusWord e).extractLsb' 0 2 = e.pcnt ∧ (encStatusWord e).getLsbD 2 = e.flushed ∧ (encStatusWord e).getLsbD 3 = false
      ∧ (encStatusWord e).extractLsb' 4 3 = e.eerr ∧ (encStatusWord e).getLsbD 7 = false
      ∧ (encStatusWord e).extractLsb' 8 17 = e.col ∧ (encStatusWord e).extractLsb' 25 7 = 0#7 := by
  unfold encStatusWord
  refine ⟨?_, ?_, ?_, ?_, ?_, ?_, ?_⟩
  · rw [BitVec.extractLsb'_setWidth_of_le (by decide), BitVec.extractLsb'_append_eq_right]
  · simp only [BitVec.getLsbD_setWidth, BitVec.getLsbD_append]
    simp
  · simp only [BitVec.getLsbD_setWidth, BitVec.getLsbD_append]
    simp
  · rw [BitVec.extractLsb'_setWidth_of_le (by decide)]
    iterate 3 rw [BitVec.extractLsb'_append_eq_of_le (by decide)]
    exact BitVec.extractLsb'_append_eq_right
  · simp only [BitVec.getLsbD_setWidth, BitVec.getLsbD_append]
    simp
  · rw [BitVec.extractLsb'_setWidth_of_le (by decide)]
    iterate 5 rw [BitVec.extractLsb'_append_eq_of_le (by decide)]
    exact BitVec.extractLsb'_eq_self
  · rw [BitVec.setWidth_eq_append (by decide)]
    exact BitVec.extractLsb'_append_eq_left

/-- `ENC.RDCFG` (30_encoding.md R79). -/
theorem encConfigWord_fields (lb : Octet) (e : EncoderUnit) :
    (encConfigWord lb e).extractLsb' 0 16 = e.ll ∧ (encConfigWord lb e).extractLsb' 16 8 = lb
      ∧ (encConfigWord lb e).extractLsb' 24 8 = 0#8 := by
  unfold encConfigWord
  refine ⟨?_, ?_, ?_⟩
  · rw [BitVec.extractLsb'_setWidth_of_le (by decide), BitVec.extractLsb'_append_eq_right]
  · rw [BitVec.extractLsb'_setWidth_of_le (by decide), BitVec.extractLsb'_append_eq_left]
  · rw [BitVec.setWidth_eq_append (by decide)]
    exact BitVec.extractLsb'_append_eq_left

/-- `ENC.RDPEND` (30_encoding.md R80). -/
theorem encPendingWord_fields (e : EncoderUnit) :
    (encPendingWord e).extractLsb' 0 8 = e.pb0 ∧ (encPendingWord e).extractLsb' 8 8 = e.pb1
      ∧ (encPendingWord e).extractLsb' 16 2 = e.pcnt ∧ (encPendingWord e).extractLsb' 18 14 = 0#14 := by
  unfold encPendingWord
  refine ⟨?_, ?_, ?_, ?_⟩
  · rw [BitVec.extractLsb'_setWidth_of_le (by decide), BitVec.extractLsb'_append_eq_right]
  · rw [BitVec.extractLsb'_setWidth_of_le (by decide), BitVec.extractLsb'_append_eq_of_le (by decide)]
    exact BitVec.extractLsb'_append_eq_right
  · rw [BitVec.extractLsb'_setWidth_of_le (by decide), BitVec.extractLsb'_append_eq_of_le (by decide)]
    exact BitVec.extractLsb'_append_eq_left
  · rw [BitVec.setWidth_eq_append (by decide)]
    exact BitVec.extractLsb'_append_eq_left

/-- `DEC.RDSTAT` (30_encoding.md R81). -/
theorem decStatusWord_fields (d : DecoderUnit) :
    (decStatusWord d).extractLsb' 0 2 = d.phase ∧ (decStatusWord d).extractLsb' 2 2 = 0#2
      ∧ (decStatusWord d).extractLsb' 4 3 = d.derr ∧ (decStatusWord d).getLsbD 7 = false
      ∧ (decStatusWord d).extractLsb' 8 6 = d.rem ∧ (decStatusWord d).extractLsb' 14 18 = 0#18 := by
  unfold decStatusWord
  refine ⟨?_, ?_, ?_, ?_, ?_, ?_⟩
  · rw [BitVec.extractLsb'_setWidth_of_le (by decide), BitVec.extractLsb'_append_eq_right]
  · rw [BitVec.extractLsb'_setWidth_of_le (by decide), BitVec.extractLsb'_append_eq_of_le (by decide)]
    exact BitVec.extractLsb'_append_eq_right
  · rw [BitVec.extractLsb'_setWidth_of_le (by decide)]
    iterate 2 rw [BitVec.extractLsb'_append_eq_of_le (by decide)]
    exact BitVec.extractLsb'_append_eq_right
  · simp only [BitVec.getLsbD_setWidth, BitVec.getLsbD_append]
    simp
  · rw [BitVec.extractLsb'_setWidth_of_le (by decide)]
    iterate 4 rw [BitVec.extractLsb'_append_eq_of_le (by decide)]
    exact BitVec.extractLsb'_eq_self
  · rw [BitVec.setWidth_eq_append (by decide)]
    exact BitVec.extractLsb'_append_eq_left

/-! ### The obligations about records -/

/-- Settles O32: the group's record and unit, after a line break and without one. -/
theorem encByteEmitsTheGroup : Obligations.EncByteEmitsTheGroup := by
  intro s b hf hp
  have hoctets := groupOctets_four s.enc.pb0 s.enc.pb1 b
  refine ⟨_, _, _, _, rfl, rfl, rfl, rfl, fun hdue => ?_, fun hdue => ?_⟩
  · obtain ⟨hunit, hrecord⟩ := group_of_breakDue lbChar hoctets hdue
    rw [exec_encByte_group b hf hp, hunit, hrecord]
    rfl
  · obtain ⟨hunit, hrecord⟩ := group_of_not_breakDue lbChar hoctets hdue
    rw [exec_encByte_group b hf hp, hunit, hrecord, zero_append_four]
    rfl

/-- Settles O33: with nothing pending there is no group; with one byte or two, the group's record and unit. -/
theorem encFlushEmitsThePaddedGroup : Obligations.EncFlushEmitsThePaddedGroup := by
  intro s hf
  refine ⟨fun hp => ?_, ?_⟩
  · have hunit : { clearPending s.enc with flushed := true } = { s.enc with pb0 := 0#8, pb1 := 0#8, flushed := true } := by
      simp [clearPending, hp]
    rw [exec_encFlush hf (by simp [hp]), flushGroup_none lbChar hp, hunit]
    rfl
  · rintro d (⟨hp, rfl⟩ | ⟨hp, rfl⟩)
    · exact exec_encFlush_group hf (by simp [hp]) (flushGroup_one lbChar hp) (groupOctets_two s.enc.pb0)
    · exact exec_encFlush_group hf (by simp [hp]) (flushGroup_two lbChar hp) (groupOctets_three s.enc.pb0 s.enc.pb1)

/-- Settles O34: the words are the readback words of the encoder unit. -/
theorem encoderReadbacksReturnTheirFields : Obligations.EncoderReadbacksReturnTheirFields := by
  intro s
  refine ⟨encStatusWord s.enc, encConfigWord lbChar s.enc, encPendingWord s.enc, fun hp => ⟨if_neg hp, if_neg hp⟩, rfl, ?_⟩
  simp only [encStatusWord_fields, encConfigWord_fields, encPendingWord_fields, and_self]

/-- Settles O41: the word is the readback word of the decoder unit. -/
theorem decoderReadbackReturnsItsFields : Obligations.DecoderReadbackReturnsItsFields :=
  fun s => ⟨decStatusWord s.dec, rfl, decStatusWord_fields s.dec⟩

end Sys2Proof.Machine

/-! ## The encoder streams (40_encoder.md)

`enc.write` is followed byte by byte and compared with the document's `documentWrite` (`documentWrite_cons`, `issue_encWriteWords`). A
flushed stream is then the list of its groups, `streamSymbols`, with a line break before those groups that `markBreaks` marks; the one law
`issue_encStreamWords` ties it to the model, and the length, the lines and the padding are read off from there. -/

namespace Sys2Proof.Machine

/-! ### Encoder commands -/

/-- The command word of an instruction does what the instruction does. -/
theorem performWord_encode (i : Instr) (s : State) : performWord (encode i) s = exec i s :=
  performWord_instr (decodeOfEncodeIsTheInstruction i) s

/-- ENC.BYTE of a stream that is not flushed does what `byteUnit` says (40_encoder.md R111). -/
theorem exec_encByte (b : Octet) {s : State} (hf : s.enc.flushed = false) (hp : CountOk s.enc) :
    exec (.encByte b) s = .next (respond .encoder (successRecord (byteUnit lbChar b s.enc).2 0#32)
      (withEnc (byteUnit lbChar b s.enc).1 s)) :=
  encByteWith_eq lbChar b s hf hp

/-- With fewer than two bytes pending, ENC.BYTE buffers its byte. -/
theorem byteUnit_push (lb b : Octet) {e : EncoderUnit} (hp : e.pcnt ≠ 2#2) : byteUnit lb b e = (push b e, []) :=
  if_neg hp

/-- With two bytes pending, ENC.BYTE completes their group. -/
theorem byteUnit_group (lb b : Octet) {e : EncoderUnit} (hp : e.pcnt = 2#2) :
    byteUnit lb b e = (clearPending (group lb e.pb0 e.pb1 b 4 e).1, (group lb e.pb0 e.pb1 b 4 e).2) :=
  if_pos hp

/-! ### The document's write, one byte at a time (40_encoder.md R120) -/

/-- A group neither reads nor writes the pending bytes. -/
theorem group_clearPending (lb v1 v2 v3 : Octet) (k : Nat) (e : EncoderUnit) :
    group lb v1 v2 v3 k (clearPending e) = (clearPending (group lb v1 v2 v3 k e).1, (group lb v1 v2 v3 k e).2) := by
  refine Prod.ext ?_ ?_
  · simp only [group_unit]
    rfl
  · simp only [group_out]
    rfl

/-- The document's groups neither read nor write the pending bytes. -/
theorem documentGroups_clearPending (lb : Octet) (bs : List Octet) (e : EncoderUnit) :
    documentGroups lb bs (clearPending e) = (clearPending (documentGroups lb bs e).1, (documentGroups lb bs e).2) := by
  induction bs, e using documentGroups.induct (lb := lb) with
  | case1 e v1 v2 v3 rest g ih => simp [documentGroups, group_clearPending, g, ih]
  | case2 e left _ => simp [documentGroups]

/-- Storing bytes writes the count, which then has a meaning, and the two slots; it reads nothing of the unit. -/
theorem storePending_eq (left : List Octet) :
    ∃ n a b, n ≠ 3#2 ∧ ∀ e, storePending left e = { e with pcnt := n, pb0 := a, pb1 := b } := by
  match left with
  | [] => exact ⟨0#2, _, _, by decide, fun _ => rfl⟩
  | [_] => exact ⟨1#2, _, _, by decide, fun _ => rfl⟩
  | _ :: _ :: _ => exact ⟨2#2, _, _, by decide, fun _ => rfl⟩

section
variable (left : List Octet) (e : EncoderUnit)

@[simp] theorem storePending_clearPending : storePending left (clearPending e) = storePending left e := by
  obtain ⟨n, a, b, -, h⟩ := storePending_eq left
  rw [h, h]
  rfl

@[simp] theorem breakDue_storePending : breakDue (storePending left e) = breakDue e := by
  obtain ⟨n, a, b, -, h⟩ := storePending_eq left
  rw [h]
  rfl

@[simp] theorem storePending_flushed : (storePending left e).flushed = e.flushed := by
  obtain ⟨n, a, b, -, h⟩ := storePending_eq left
  rw [h]

theorem storePending_countOk : CountOk (storePending left e) := by
  obtain ⟨n, a, b, hn, h⟩ := storePending_eq left
  rwa [h]

end

/-- With nothing pending, the document's write is its groups of the chunk, and the rest is stored. -/
theorem documentWrite_clearPending (lb : Octet) (bs : List Octet) (e : EncoderUnit) :
    documentWrite lb bs (clearPending e) =
      (storePending (documentGroups lb bs e).2.2 (documentGroups lb bs e).1, (documentGroups lb bs e).2.1) := by
  have hnone : pendingBytes (clearPending e) = [] := rfl
  simp [documentWrite, hnone, documentGroups_clearPending]

/-- The pending bytes are written as if they stood before the chunk. -/
theorem documentWrite_eq (lb : Octet) (bs : List Octet) (e : EncoderUnit) :
    documentWrite lb bs e = documentWrite lb (pendingBytes e ++ bs) (clearPending e) :=
  (documentWrite_clearPending lb (pendingBytes e ++ bs) e).symm

/-- A write of no bytes changes nothing where the unused slots hold 0. -/
theorem documentWrite_nil (lb : Octet) {e : EncoderUnit} (hp : CountOk e) (hs : SlotsOk e) :
    documentWrite lb [] e = (e, []) := by
  obtain ⟨ll, pcnt, pb0, pb1, col, flushed, eerr⟩ := e
  obtain ⟨hs0, hs1⟩ := hs
  rcases phase_cases pcnt with rfl | rfl | rfl | rfl
  · obtain ⟨rfl, rfl⟩ := hs0 rfl
    rfl
  · obtain rfl := hs1 rfl
    rfl
  · rfl
  · exact absurd rfl hp

/-- A buffered byte stands behind the bytes that were pending. -/
theorem pendingBytes_push (b : Octet) {e : EncoderUnit} (h : e.pcnt = 0#2 ∨ e.pcnt = 1#2) :
    pendingBytes (push b e) = pendingBytes e ++ [b] := by
  rcases h with h | h <;> simp [pendingBytes, push, h]

theorem clearPending_push (b : Octet) (e : EncoderUnit) : clearPending (push b e) = clearPending e := by
  unfold push
  split <;> rfl

/-- The document's write takes the first byte of a chunk as ENC.BYTE does. -/
theorem documentWrite_cons (lb b : Octet) (bs : List Octet) {e : EncoderUnit} (hp : CountOk e) :
    documentWrite lb (b :: bs) e =
      ((documentWrite lb bs (byteUnit lb b e).1).1, (byteUnit lb b e).2 ++ (documentWrite lb bs (byteUnit lb b e).1).2) := by
  by_cases h2 : e.pcnt = 2#2
  · have hpending : pendingBytes e = [e.pb0, e.pb1] := by simp [pendingBytes, h2]
    rw [byteUnit_group lb b h2, documentWrite_clearPending]
    simp [documentWrite, hpending, documentGroups]
  · have hpush : documentWrite lb bs (push b e) = documentWrite lb (b :: bs) e := by
      rw [documentWrite_eq, documentWrite_eq lb (b :: bs), clearPending_push,
        pendingBytes_push b (pcnt_eq_zero_or_one h2 hp), List.append_assoc, List.singleton_append]
    rw [byteUnit_push lb b h2, hpush]
    rfl

theorem encWriteWords_cons (b : Octet) (bs : List Octet) :
    encWriteWords (b :: bs) = encode (.encByte b) :: encWriteWords bs := rfl

/-- `enc.write` of a chunk does what the document's write says. -/
theorem issue_encWriteWords (bs : List Octet) {s : State} (hp : CountOk s.enc) (hs : SlotsOk s.enc)
    (hf : s.enc.flushed = false) :
    ∃ t, issue (encWriteWords bs) s = .next t ∧ t.enc = (documentWrite lbChar bs s.enc).1
      ∧ unitOutput .encoder t.responses = unitOutput .encoder s.responses ++ (documentWrite lbChar bs s.enc).2
      ∧ t.dec = s.dec := by
  induction bs generalizing s with
  | nil =>
    rw [documentWrite_nil lbChar hp hs]
    exact ⟨_, rfl, rfl, (List.append_nil _).symm, rfl⟩
  | cons b bs ih =>
    have hmove : EncoderMove s.enc _ _ _ := .byte b hf hp
    obtain ⟨-, hflushed, -⟩ := byteUnit_frame lbChar b s.enc
    obtain ⟨t, ht, henc, hout, hdec⟩ := ih
      (s := respond .encoder (successRecord (byteUnit lbChar b s.enc).2 0#32) (withEnc (byteUnit lbChar b s.enc).1 s))
      (hmove.keeps_countOk hp) (hmove.keeps_slotsOk hs) (hflushed.trans hf)
    rw [documentWrite_cons lbChar b bs hp]
    refine ⟨t, ?_, henc, ?_, hdec⟩
    · rw [encWriteWords_cons, issue_cons, performWord_encode, exec_encByte b hf hp, andThen_next, ht]
    · rw [hout, unitOutput_respond _ _ _ _ (byteUnit_out_length_le lbChar b s.enc)]
      simp

/-! ### A flushed stream as the list of its groups (40_encoder.md R102, R103, R112) -/

/-- The symbols of each group of a flushed stream: four of each three bytes, and three or two of the two bytes or the one left. -/
def streamSymbols : List Octet → List (List Octet)
  | v1 :: v2 :: v3 :: rest => (mapper v1 v2 v3).take 4 :: streamSymbols rest
  | [v1, v2] => [(mapper v1 v2 0x00#8).take 3]
  | [v1] => [(mapper v1 0x00#8 0x00#8).take 2]
  | [] => []

/-- A group's symbols filled up with padding to four octets. -/
def padGroup (symbols : List Octet) : List Octet := symbols ++ List.replicate (4 - symbols.length) pad

/-- The groups of a flushed stream, four octets each. -/
def streamGroups (bs : List Octet) : List (List Octet) := (streamSymbols bs).map padGroup

/-- The unit after a group, whatever the group holds. -/
def afterGroup (e : EncoderUnit) : EncoderUnit := { e with col := (if breakDue e then 0#17 else e.col) + 4#17 }

/-- Each of the groups with whether a line break comes before it, the first emitted by the unit `e`. -/
def markBreaks : List (List Octet) → EncoderUnit → List (Bool × List Octet)
  | [], _ => []
  | g :: gs, e => (breakDue e, g) :: markBreaks gs (afterGroup e)

/-- The groups' octets with their line breaks, the first emitted by the unit `e`. -/
def wrapGroups (lb : Octet) (gs : List (List Octet)) (e : EncoderUnit) : List Octet :=
  (markBreaks gs e).flatMap fun p => (if p.1 = true then [lb] else []) ++ p.2

@[simp] theorem wrapGroups_nil (lb : Octet) (e : EncoderUnit) : wrapGroups lb [] e = [] := rfl

theorem wrapGroups_cons (lb : Octet) (g : List Octet) (gs : List (List Octet)) (e : EncoderUnit) :
    wrapGroups lb (g :: gs) e = (if breakDue e then [lb] else []) ++ g ++ wrapGroups lb gs (afterGroup e) := by
  simp [wrapGroups, markBreaks]

theorem padGroup_take_mapper (v1 v2 v3 : Octet) {k : Nat} (hk : k ≤ 4) :
    padGroup ((mapper v1 v2 v3).take k) = (mapper v1 v2 v3).take k ++ List.replicate (4 - k) pad := by
  simp [padGroup, mapper, hk]

/-- A group is its padded symbols after the line break that is due. -/
theorem group_eq_padGroup (lb v1 v2 v3 : Octet) {k : Nat} (hk : k ≤ 4) (e : EncoderUnit) :
    group lb v1 v2 v3 k e =
      (afterGroup e, (if breakDue e then [lb] else []) ++ padGroup ((mapper v1 v2 v3).take k)) :=
  Prod.ext (group_unit ..) (by rw [group_out, padGroup_take_mapper v1 v2 v3 hk, List.append_assoc])

/-- The document's groups and then the group of the bytes left are the stream's groups, each after its break check. -/
theorem documentGroups_flushGroup_out (lb : Octet) (bs : List Octet) (e : EncoderUnit) :
    (documentGroups lb bs e).2.1
        ++ (flushGroup lb (storePending (documentGroups lb bs e).2.2 (documentGroups lb bs e).1)).2
      = wrapGroups lb (streamGroups bs) e := by
  induction bs using streamSymbols.induct generalizing e with
  | case1 v1 v2 v3 rest ih =>
    have hgroup := group_eq_padGroup lb v1 v2 v3 le_rfl e
    simp only [documentGroups, hgroup, streamGroups, streamSymbols, List.map_cons, wrapGroups_cons, List.append_assoc]
    rw [ih, streamGroups]
  | case2 v1 v2 =>
    have hflush : flushGroup lb (storePending [v1, v2] e) = group lb v1 v2 0x00#8 3 (storePending [v1, v2] e) := rfl
    simp [documentGroups, hflush, group_eq_padGroup, streamGroups, streamSymbols, wrapGroups_cons]
  | case3 v1 =>
    have hflush : flushGroup lb (storePending [v1] e) = group lb v1 0x00#8 0x00#8 2 (storePending [v1] e) := rfl
    simp [documentGroups, hflush, group_eq_padGroup, streamGroups, streamSymbols, wrapGroups_cons]
  | case4 => rfl

/-! ### The law of a flushed stream -/

@[simp] theorem documentGroups_flushed (lb : Octet) (bs : List Octet) (e : EncoderUnit) :
    (documentGroups lb bs e).1.flushed = e.flushed := by
  induction bs, e using documentGroups.induct (lb := lb) with
  | case1 e v1 v2 v3 rest g ih => simpa [documentGroups, g] using ih
  | case2 e left _ => simp [documentGroups]

/-- The encoder unit at the start of a stream. -/
def streamStart (ll : BitVec 16) : EncoderUnit := { EncoderUnit.reset with ll := ll }

@[simp] theorem streamStart_ll (ll : BitVec 16) : (streamStart ll).ll = ll := rfl
@[simp] theorem streamStart_col (ll : BitVec 16) : (streamStart ll).col = 0#17 := rfl

/-- ENC.INIT starts a stream (40_encoder.md R110). -/
theorem exec_encInit (ll : BitVec 16) (s : State) :
    exec (.encInit ll) s = .next (respond .encoder (successRecord [] 0#32) (withEnc (streamStart ll) s)) := rfl

/-- What the document's write of a whole stream leaves for ENC.FLUSH, and what it returns. -/
theorem documentWrite_streamStart (lb : Octet) (bs : List Octet) (ll : BitVec 16) :
    documentWrite lb bs (streamStart ll) =
      (storePending (documentGroups lb bs (streamStart ll)).2.2 (documentGroups lb bs (streamStart ll)).1,
        (documentGroups lb bs (streamStart ll)).2.1) :=
  documentWrite_clearPending lb bs (streamStart ll)

theorem documentWrite_streamStart_flushed (lb : Octet) (bs : List Octet) (ll : BitVec 16) :
    (documentWrite lb bs (streamStart ll)).1.flushed = false := by
  rw [documentWrite_streamStart, storePending_flushed, documentGroups_flushed]
  rfl

theorem documentWrite_countOk (lb : Octet) (bs : List Octet) (e : EncoderUnit) : CountOk (documentWrite lb bs e).1 :=
  storePending_countOk _ _

/-- ENC.FLUSH of a stream that is not flushed emits what `flushGroup` says. -/
theorem issue_encFlush {s : State} (hf : s.enc.flushed = false) (hp : CountOk s.enc) :
    ∃ t, issue [encode .encFlush] s = .next t
      ∧ unitOutput .encoder t.responses = unitOutput .encoder s.responses ++ (flushGroup lbChar s.enc).2 := by
  rw [issue_cons, performWord_encode, exec_encFlush hf hp]
  exact ⟨_, rfl, unitOutput_respond _ _ _ _ (flushGroup_out_length_le lbChar s.enc)⟩

/-- From every state a flushed stream completes, and its output is the stream's groups with their line breaks. -/
theorem issue_encStreamWords (ll : BitVec 16) (bs : List Octet) (s : State) :
    ∃ t, issue (encStreamWords ll bs) s = .next t
      ∧ unitOutput .encoder t.responses
          = unitOutput .encoder s.responses ++ wrapGroups lbChar (streamGroups bs) (streamStart ll) := by
  have hstart : CountOk (streamStart ll) ∧ SlotsOk (streamStart ll) :=
    ⟨(by decide : (0#2 : BitVec 2) ≠ 3#2), fun _ => ⟨rfl, rfl⟩, fun _ => rfl⟩
  obtain ⟨t, ht, henc, hout, -⟩ := issue_encWriteWords bs
    (s := respond .encoder (successRecord [] 0#32) (withEnc (streamStart ll) s)) hstart.1 hstart.2 rfl
  rw [respond_enc, withEnc_enc] at henc hout
  have hp : CountOk t.enc := henc ▸ documentWrite_countOk lbChar bs (streamStart ll)
  have hf : t.enc.flushed = false := henc ▸ documentWrite_streamStart_flushed ..
  obtain ⟨t', ht', hout'⟩ := issue_encFlush hf hp
  refine ⟨t', ?_, ?_⟩
  · rw [encStreamWords, issue_cons, performWord_encode, exec_encInit, andThen_next, encEncodeWords, issue_append, ht,
      andThen_next, ht']
  · rw [hout', hout, unitOutput_respond _ _ [] _ (Nat.zero_le 5), withEnc_responses, List.append_nil, List.append_assoc,
      henc, documentWrite_streamStart, documentGroups_flushGroup_out]

/-! ### The symbols and the padding of a stream's groups -/

theorem length_streamSymbols (bs : List Octet) : (streamSymbols bs).length = (bs.length + 2) / 3 := by
  induction bs using streamSymbols.induct with
  | case1 v1 v2 v3 rest ih =>
    simp only [streamSymbols, List.length_cons, ih]
    omega
  | case2 | case3 | case4 => simp [streamSymbols]

theorem streamSymbols_eq_nil_iff (bs : List Octet) : streamSymbols bs = [] ↔ bs = [] := by
  rw [← List.length_eq_zero_iff, length_streamSymbols, ← List.length_eq_zero_iff]
  omega

theorem streamGroups_eq_nil_iff (bs : List Octet) : streamGroups bs = [] ↔ bs = [] :=
  List.map_eq_nil_iff.trans (streamSymbols_eq_nil_iff bs)

@[simp] theorem length_streamGroups (bs : List Octet) : (streamGroups bs).length = (bs.length + 2) / 3 := by
  rw [streamGroups, List.length_map, length_streamSymbols]

/-- An octet that is a symbol of the alphabet. -/
abbrev IsSymbol (o : Octet) : Prop := rev (o.setWidth 16) ≠ none

theorem isSymbol_of_mem_mapper {v1 v2 v3 o : Octet} (h : o ∈ mapper v1 v2 v3) : IsSymbol o := by
  have halpha (i : SymbolIndex) : IsSymbol (alpha i) := by simp [rev_alpha]
  simp only [mapper, List.mem_cons, List.not_mem_nil, or_false] at h
  rcases h with rfl | rfl | rfl | rfl <;> exact halpha _

/-- A group of a stream has the first two, three or four symbols that the mapper makes. -/
theorem exists_mapper_of_mem_streamSymbols {bs : List Octet} {g : List Octet} (h : g ∈ streamSymbols bs) :
    ∃ v1 v2 v3 k, 2 ≤ k ∧ k ≤ 4 ∧ g = (mapper v1 v2 v3).take k := by
  induction bs using streamSymbols.induct with
  | case1 v1 v2 v3 rest ih =>
    rcases List.mem_cons.1 h with rfl | h
    · exact ⟨v1, v2, v3, 4, by decide, le_rfl, rfl⟩
    · exact ih h
  | case2 v1 v2 => exact ⟨v1, v2, _, 3, by decide, by decide, List.mem_singleton.1 h⟩
  | case3 v1 => exact ⟨v1, _, _, 2, le_rfl, by decide, List.mem_singleton.1 h⟩
  | case4 => cases h

theorem isSymbol_of_mem_streamSymbols {bs g : List Octet} {o : Octet} (hg : g ∈ streamSymbols bs) (ho : o ∈ g) : IsSymbol o := by
  obtain ⟨v1, v2, v3, k, -, -, rfl⟩ := exists_mapper_of_mem_streamSymbols hg
  exact isSymbol_of_mem_mapper (List.mem_of_mem_take ho)

theorem length_of_mem_streamSymbols {bs : List Octet} {g : List Octet} (h : g ∈ streamSymbols bs) :
    2 ≤ g.length ∧ g.length ≤ 4 := by
  obtain ⟨v1, v2, v3, k, h2, h4, rfl⟩ := exists_mapper_of_mem_streamSymbols h
  simp [mapper, h2, h4]

theorem length_of_mem_streamGroups {bs g : List Octet} (h : g ∈ streamGroups bs) : g.length = 4 := by
  obtain ⟨g, hg, rfl⟩ := List.mem_map.1 h
  have := length_of_mem_streamSymbols hg
  simp only [padGroup, List.length_append, List.length_replicate]
  omega

theorem pad_or_isSymbol_of_mem_streamGroups {bs g : List Octet} {o : Octet} (hg : g ∈ streamGroups bs) (ho : o ∈ g) :
    o = pad ∨ IsSymbol o := by
  obtain ⟨symbols, hsymbols, rfl⟩ := List.mem_map.1 hg
  rcases List.mem_append.1 ho with ho | ho
  · exact .inr (isSymbol_of_mem_streamSymbols hsymbols ho)
  · exact .inl (List.eq_of_mem_replicate ho)

/-! ### The column at the groups of a stream (40_encoder.md R101, R102) -/

@[simp] theorem afterGroup_ll (e : EncoderUnit) : (afterGroup e).ll = e.ll := rfl

theorem afterGroup_columnOk {e : EncoderUnit} (he : ColumnOk e) : ColumnOk (afterGroup e) := by
  have h := group_columnOk 0#8 0#8 0#8 0#8 4 he
  rwa [group_unit] at h

theorem breakDue_eq_false {e : EncoderUnit} (h : e.ll = 0#16) : breakDue e = false := by
  simp [breakDue, wrapping, h]

/-- While wrapping is enabled, a break is due exactly at the end of a full line; a group then stands at the start of the next line,
and otherwise has room in its line. -/
theorem afterGroup_cases {e : EncoderUnit} (he : ColumnOk e) (hll : e.ll ≠ 0#16) :
    (breakDue e = true ∧ e.col.toNat = fullLine e.ll ∧ (afterGroup e).col.toNat = 4)
      ∨ (breakDue e = false ∧ e.col.toNat + 4 ≤ fullLine e.ll ∧ (afterGroup e).col.toNat = e.col.toNat + 4) := by
  obtain ⟨hmod, hle⟩ := he
  have hline := hle hll
  have hll' := e.ll.isLt
  unfold fullLine at *
  by_cases hdue : breakDue e = true
  · have hcol := ((breakDue_iff e).1 hdue).2
    exact .inl ⟨hdue, by omega, by simp [afterGroup, hdue]⟩
  · have hcol : e.col.toNat < e.ll.toNat := by
      by_contra hge
      exact hdue ((breakDue_iff e).2 ⟨hll, by omega⟩)
    have hnext : (e.col + 4#17).toNat = e.col.toNat + 4 := by bv_omega
    exact .inr ⟨by simpa using hdue, by omega, by rw [afterGroup, if_neg hdue, hnext]⟩

/-! ### The line breaks of a stream (40_encoder.md R122) -/

theorem length_markBreaks (gs : List (List Octet)) (e : EncoderUnit) : (markBreaks gs e).length = gs.length := by
  induction gs generalizing e with
  | nil => rfl
  | cons g gs ih => simp [markBreaks, ih]

theorem mem_of_mem_markBreaks {gs : List (List Octet)} {e : EncoderUnit} {p : Bool × List Octet} (h : p ∈ markBreaks gs e) :
    p.2 ∈ gs := by
  induction gs generalizing e with
  | nil => cases h
  | cons g gs ih =>
    rcases List.mem_cons.1 h with rfl | h
    · exact List.mem_cons_self
    · exact List.mem_cons_of_mem _ (ih h)

/-- A stream that does not wrap has no line break. -/
theorem markBreaks_eq_of_ll_zero (gs : List (List Octet)) {e : EncoderUnit} (h : e.ll = 0#16) :
    markBreaks gs e = gs.map fun g => (false, g) := by
  induction gs generalizing e with
  | nil => rfl
  | cons g gs ih => simp [markBreaks, breakDue_eq_false h, ih (e := afterGroup e) h]

/-- The breaks of groups that follow `COL / 4` groups of the current line: one before each group after a full line, which is
`ceil(LL / 4)` groups. -/
theorem countP_markBreaks (gs : List (List Octet)) {e : EncoderUnit} (he : ColumnOk e) (hll : e.ll ≠ 0#16) :
    (markBreaks gs e).countP (fun p => p.1) = (gs.length + e.col.toNat / 4 - 1) / ((e.ll.toNat + 3) / 4) := by
  have hline := he.2 hll
  have hq : 0 < (e.ll.toNat + 3) / 4 := by bv_omega
  unfold fullLine at hline
  induction gs generalizing e with
  | nil =>
    refine (Nat.div_eq_of_lt ?_).symm
    simp only [List.length_nil]
    omega
  | cons g gs ih =>
    have ih := ih (e := afterGroup e) (afterGroup_columnOk he) hll ((afterGroup_columnOk he).2 hll) hq
    rw [afterGroup_ll] at ih
    rcases afterGroup_cases he hll with ⟨hdue, hcol, hnext⟩ | ⟨hdue, -, hnext⟩
    · have hfull : gs.length + 1 + e.col.toNat / 4 - 1 = gs.length + (e.ll.toNat + 3) / 4 := by
        unfold fullLine at hcol
        omega
      rw [markBreaks, List.countP_cons_of_pos (by exact hdue), ih, hnext, List.length_cons, hfull, Nat.add_div_right _ hq]
      rfl
    · have hroom : gs.length + 1 + e.col.toNat / 4 - 1 = gs.length + (e.col.toNat + 4) / 4 - 1 := by omega
      rw [markBreaks, List.countP_cons_of_neg (by simp [hdue]), ih, hnext, List.length_cons, hroom]

/-- A stream's octets are its groups' octets and its line breaks. -/
theorem length_wrapGroups (lb : Octet) {gs : List (List Octet)} (hgs : ∀ g ∈ gs, g.length = 4) (e : EncoderUnit) :
    (wrapGroups lb gs e).length = 4 * gs.length + (markBreaks gs e).countP fun p => p.1 := by
  induction gs generalizing e with
  | nil => rfl
  | cons g gs ih =>
    have hg := hgs g List.mem_cons_self
    have ih := ih (fun g hg => hgs g (List.mem_cons_of_mem _ hg)) (afterGroup e)
    rw [wrapGroups_cons, markBreaks, List.countP_cons, List.length_append, List.length_append, ih, hg, List.length_cons]
    cases breakDue e with
    | false =>
      simp only [Bool.false_eq_true, if_false, List.length_nil]
      omega
    | true =>
      simp only [if_true, List.length_singleton]
      omega

theorem streamStart_columnOk (ll : BitVec 16) : ColumnOk (streamStart ll) := ⟨rfl, fun _ => Nat.zero_le _⟩

/-- A stream has no break where `LL` is 0, and else one before each group after a full line. -/
theorem countP_markBreaks_streamStart (gs : List (List Octet)) (ll : BitVec 16) :
    (markBreaks gs (streamStart ll)).countP (fun p => p.1)
      = if ll = 0#16 then 0 else (gs.length - 1) / ((ll.toNat + 3) / 4) := by
  split_ifs with hll
  · simp [markBreaks_eq_of_ll_zero gs (e := streamStart ll) hll, List.countP_map]
  · rw [countP_markBreaks gs (streamStart_columnOk ll) hll, streamStart_ll, streamStart_col, BitVec.toNat_ofNat, Nat.zero_mod,
      Nat.zero_div, Nat.add_zero]

/-! ### The lines of a stream (40_encoder.md R123) -/

/-- What the groups add to the current line, and the lines after it. -/
def streamLines : List (List Octet) → EncoderUnit → List Octet × List (List Octet)
  | [], _ => ([], [])
  | g :: gs, e =>
      if breakDue e then ([], (g ++ (streamLines gs (afterGroup e)).1) :: (streamLines gs (afterGroup e)).2)
      else (g ++ (streamLines gs (afterGroup e)).1, (streamLines gs (afterGroup e)).2)

/-- Octets at the start of the first line stand before the whole text. -/
theorem intercalate_append_cons (sep head line : List Octet) (lines : List (List Octet)) :
    sep.intercalate ((head ++ line) :: lines) = head ++ sep.intercalate (line :: lines) := by
  cases lines <;> simp [List.intercalate]

/-- A stream's output is its lines with the line-break octet between them. -/
theorem wrapGroups_eq_intercalate (lb : Octet) (gs : List (List Octet)) (e : EncoderUnit) :
    wrapGroups lb gs e = [lb].intercalate ((streamLines gs e).1 :: (streamLines gs e).2) := by
  induction gs generalizing e with
  | nil => rfl
  | cons g gs ih =>
    rw [wrapGroups_cons, ih, streamLines]
    cases breakDue e with
    | false => exact (intercalate_append_cons ..).symm
    | true =>
      simp only [if_true, List.intercalate_cons_cons, intercalate_append_cons, List.nil_append, List.append_assoc]

/-- The lines hold the groups' octets and no other. -/
theorem flatten_streamLines (gs : List (List Octet)) (e : EncoderUnit) :
    (streamLines gs e).1 ++ (streamLines gs e).2.flatten = gs.flatten := by
  induction gs generalizing e with
  | nil => rfl
  | cons g gs ih => cases hdue : breakDue e <;> simp [streamLines, hdue, ← ih (afterGroup e)]

/-- Lines of 4 characters to `n`, all but the last of `n`. -/
def LinesFilled (n : Nat) (lines : List (List Octet)) : Prop :=
  (∀ line ∈ lines, 4 ≤ line.length ∧ line.length ≤ n) ∧ ∀ line ∈ lines.dropLast, line.length = n

theorem linesFilled_nil (n : Nat) : LinesFilled n [] := ⟨nofun, nofun⟩

theorem LinesFilled.cons {n : Nat} {line : List Octet} {lines : List (List Octet)} (h : LinesFilled n lines)
    (hlength : 4 ≤ line.length ∧ line.length ≤ n) (hfull : lines ≠ [] → line.length = n) : LinesFilled n (line :: lines) := by
  refine ⟨List.forall_mem_cons.2 ⟨hlength, h.1⟩, ?_⟩
  by_cases hlines : lines = []
  · simp [hlines]
  · rw [List.dropLast_cons_of_ne_nil hlines]
    exact List.forall_mem_cons.2 ⟨hfull hlines, h.2⟩

section
variable {gs : List (List Octet)} (hgs : ∀ g ∈ gs, g.length = 4) {e : EncoderUnit} (he : ColumnOk e) (hll : e.ll ≠ 0#16)
include hgs he hll

/-- The current line fits in a full line, and fills it where another line follows. -/
theorem streamLines_current :
    e.col.toNat + (streamLines gs e).1.length ≤ fullLine e.ll
      ∧ ((streamLines gs e).2 ≠ [] → e.col.toNat + (streamLines gs e).1.length = fullLine e.ll) := by
  induction gs generalizing e with
  | nil => exact ⟨he.2 hll, fun h => absurd rfl h⟩
  | cons g gs ih =>
    have hg := hgs g List.mem_cons_self
    obtain ⟨hfits, hfills⟩ := ih (fun g hg => hgs g (List.mem_cons_of_mem _ hg)) (afterGroup_columnOk he) hll
    rw [afterGroup_ll] at hfits hfills
    rcases afterGroup_cases he hll with ⟨hdue, hcol, hnext⟩ | ⟨hdue, -, hnext⟩
    · simp [streamLines, hdue, hcol]
    · simp only [streamLines, hdue, Bool.false_eq_true, if_false, List.length_append, hg]
      rw [hnext] at hfits hfills
      exact ⟨by omega, fun h => by have := hfills h; omega⟩

/-- The lines from a group at the start of a line are filled if the lines after that one are. -/
theorem linesFilled_newLine {g : List Octet} (hg : g.length = 4) (hcol : e.col.toNat = 4)
    (h : LinesFilled (fullLine e.ll) (streamLines gs e).2) :
    LinesFilled (fullLine e.ll) ((g ++ (streamLines gs e).1) :: (streamLines gs e).2) := by
  obtain ⟨hfits, hfills⟩ := streamLines_current hgs he hll
  have hlength : (g ++ (streamLines gs e).1).length = e.col.toNat + (streamLines gs e).1.length := by
    rw [List.length_append, hg, hcol]
  exact h.cons ⟨by omega, by omega⟩ fun hne => hlength.trans (hfills hne)

/-- The lines after the current one are filled. -/
theorem linesFilled_following : LinesFilled (fullLine e.ll) (streamLines gs e).2 := by
  induction gs generalizing e with
  | nil => exact linesFilled_nil _
  | cons g gs ih =>
    obtain ⟨hg, hgs⟩ := List.forall_mem_cons.1 hgs
    have hnextOk := afterGroup_columnOk he
    have hfollowing := ih hgs hnextOk hll
    rcases afterGroup_cases he hll with ⟨hdue, -, hnext⟩ | ⟨hdue, -, -⟩
    · simpa [streamLines, hdue] using linesFilled_newLine hgs hnextOk hll hg hnext hfollowing
    · simpa [streamLines, hdue] using hfollowing

end

/-- The lines of a stream that wraps, none where there is no group. -/
theorem exists_lines_of_wrapGroups (lb : Octet) {gs : List (List Octet)} (hgs : ∀ g ∈ gs, g.length = 4) {ll : BitVec 16}
    (hll : ll ≠ 0#16) :
    ∃ lines, wrapGroups lb gs (streamStart ll) = [lb].intercalate lines ∧ lines.flatten = gs.flatten
      ∧ (lines = [] ↔ gs = []) ∧ LinesFilled (fullLine ll) lines := by
  cases gs with
  | nil => exact ⟨[], rfl, rfl, Iff.rfl, linesFilled_nil _⟩
  | cons g gs =>
    obtain ⟨hg, hgs⟩ := List.forall_mem_cons.1 hgs
    have hstart := streamStart_columnOk ll
    have hpos : 4 ≤ fullLine ll := by
      unfold fullLine
      bv_omega
    rcases afterGroup_cases hstart hll with ⟨-, hcol, -⟩ | ⟨hdue, -, hnext⟩
    · rw [streamStart_col, streamStart_ll, BitVec.toNat_ofNat, Nat.zero_mod] at hcol
      omega
    · have hnextOk := afterGroup_columnOk hstart
      refine ⟨_, wrapGroups_eq_intercalate lb (g :: gs) (streamStart ll), flatten_streamLines (g :: gs) (streamStart ll),
        by simp, ?_⟩
      rw [streamLines, hdue]
      exact linesFilled_newLine hgs hnextOk hll hg hnext (linesFilled_following hgs hnextOk hll)

/-! ### The end of a stream (40_encoder.md R124) -/

/-- The padding of a flushed stream of `n` bytes. -/
def paddingLength (n : Nat) : Nat := if n % 3 = 0 then 0 else if n % 3 = 1 then 2 else 1

theorem paddingLength_add_three (n : Nat) : paddingLength (n + 3) = paddingLength n := by
  rw [paddingLength, Nat.add_mod_right, paddingLength]

/-- Only the last group of a stream is padded. -/
theorem wrapGroups_streamGroups (lb : Octet) (bs : List Octet) (e : EncoderUnit) :
    wrapGroups lb (streamGroups bs) e
      = wrapGroups lb (streamSymbols bs) e ++ List.replicate (paddingLength bs.length) pad := by
  induction bs using streamSymbols.induct generalizing e with
  | case1 v1 v2 v3 rest ih =>
    have hlength : paddingLength (v1 :: v2 :: v3 :: rest).length = paddingLength rest.length :=
      paddingLength_add_three rest.length
    have hgroup : padGroup ((mapper v1 v2 v3).take 4) = (mapper v1 v2 v3).take 4 := by simp [padGroup_take_mapper]
    rw [streamGroups] at ih
    simp only [streamGroups, streamSymbols, List.map_cons, wrapGroups_cons, ih, hgroup, hlength, List.append_assoc]
  | case2 | case3 => simp [streamGroups, streamSymbols, wrapGroups_cons, padGroup_take_mapper, paddingLength]
  | case4 => rfl

/-- An octet of a stream is a group's, or a line break of a stream that wraps. -/
theorem mem_wrapGroups {lb o : Octet} {gs : List (List Octet)} {e : EncoderUnit} (h : o ∈ wrapGroups lb gs e) :
    (∃ g ∈ gs, o ∈ g) ∨ (e.ll ≠ 0#16 ∧ o = lb) := by
  induction gs generalizing e with
  | nil => cases h
  | cons g gs ih =>
    rw [wrapGroups_cons, List.append_assoc, List.mem_append, List.mem_append] at h
    rcases h with h | h | h
    · by_cases hdue : breakDue e = true
      · rw [if_pos hdue] at h
        exact .inr ⟨((breakDue_iff e).1 hdue).1, List.mem_singleton.1 h⟩
      · simp [hdue] at h
    · exact .inl ⟨g, List.mem_cons_self, h⟩
    · exact (ih h).imp_left fun ⟨g', hg', ho⟩ => ⟨g', List.mem_cons_of_mem _ hg', ho⟩

/-- A stream ends in the last octet of a group. -/
theorem getLast?_wrapGroups (lb : Octet) {gs : List (List Octet)} (hne : gs ≠ []) (hgs : ∀ g ∈ gs, g ≠ []) (e : EncoderUnit) :
    ∃ g ∈ gs, ∃ o ∈ g, (wrapGroups lb gs e).getLast? = some o := by
  induction gs generalizing e with
  | nil => exact absurd rfl hne
  | cons g gs ih =>
    obtain ⟨hg, hgs⟩ := List.forall_mem_cons.1 hgs
    rw [wrapGroups_cons]
    by_cases hrest : gs = []
    · subst hrest
      exact ⟨g, List.mem_cons_self, g.getLast hg, List.getLast_mem hg, by simp [List.getLast?_eq_some_getLast hg]⟩
    · obtain ⟨g', hg', o, ho, hlast⟩ := ih hrest hgs (afterGroup e)
      exact ⟨g', List.mem_cons_of_mem _ hg', o, ho, by simp [hlast]⟩

/-! ### The obligations -/

/-- Settles O42: byte by byte, ENC.BYTE does the first byte of the document's write of the rest of the chunk. -/
theorem encWriteRefinesTheDocumentWrite : Obligations.EncWriteRefinesTheDocumentWrite :=
  fun _ chunk hp hs hf => issue_encWriteWords chunk hp hs hf

/-- Settles O43: the groups of the stream, each marked where a line break comes before it. -/
theorem flushedStreamHasItsLength : Obligations.FlushedStreamHasItsLength := by
  intro s ll bs
  obtain ⟨t, ht, hout⟩ := issue_encStreamWords ll bs s
  have hgroups : ∀ g ∈ streamGroups bs, g.length = 4 := fun g => length_of_mem_streamGroups
  have hbreaks := countP_markBreaks_streamStart (streamGroups bs) ll
  have hlength := length_wrapGroups lbChar hgroups (streamStart ll)
  rw [hbreaks] at hlength
  rw [length_streamGroups] at hbreaks hlength
  refine ⟨t, markBreaks (streamGroups bs) (streamStart ll), _, ht, hout, rfl, ?_, fun p hp => ?_, hbreaks, hlength⟩
  · rw [length_markBreaks, length_streamGroups]
  · have hmem := mem_of_mem_markBreaks hp
    exact ⟨hgroups _ hmem, fun o => pad_or_isSymbol_of_mem_streamGroups hmem⟩

/-- Settles O44: a line ends where the column reaches `LL`, which is at the end of a full line. -/
theorem linesHaveTheirWidth : Obligations.LinesHaveTheirWidth := by
  intro s ll bs hll
  obtain ⟨t, ht, hout⟩ := issue_encStreamWords ll bs s
  obtain ⟨lines, hlines, hflatten, hnil, hwidth, hfull⟩ :=
    exists_lines_of_wrapGroups lbChar (fun g => length_of_mem_streamGroups (bs := bs) (g := g)) hll
  refine ⟨t, lines, ht, hlines ▸ hout, hnil.trans (streamGroups_eq_nil_iff bs), hfull, hwidth, fun line hline o ho => ?_⟩
  have hmem : o ∈ (streamGroups bs).flatten := hflatten ▸ List.mem_flatten.2 ⟨line, hline, ho⟩
  obtain ⟨g, hg, hog⟩ := List.mem_flatten.1 hmem
  exact pad_or_isSymbol_of_mem_streamGroups hg hog

/-- Settles O45: the data are the symbols of the groups with their line breaks; only the last group is padded. -/
theorem paddingFollowsLengthModThree : Obligations.PaddingFollowsLengthModThree := by
  intro s ll bs
  obtain ⟨t, ht, hout⟩ := issue_encStreamWords ll bs s
  rw [wrapGroups_streamGroups, ← List.append_assoc] at hout
  have hdata : ∀ o ∈ wrapGroups lbChar (streamSymbols bs) (streamStart ll), IsSymbol o ∨ (ll ≠ 0#16 ∧ o = lbChar) := by
    intro o ho
    refine (mem_wrapGroups ho).imp_left fun ⟨g, hg, hog⟩ => isSymbol_of_mem_streamSymbols hg hog
  refine ⟨t, _, ht, hout, hdata, fun hbs => ?_, fun hpad hmem => ?_⟩
  · have hne : ∀ g ∈ streamSymbols bs, g ≠ [] := fun g hg hnil => by
      simpa [hnil] using (length_of_mem_streamSymbols hg).1
    obtain ⟨g, hg, o, ho, hlast⟩ := getLast?_wrapGroups lbChar (mt (streamSymbols_eq_nil_iff bs).1 hbs) hne (streamStart ll)
    exact ⟨o, hlast, isSymbol_of_mem_streamSymbols hg ho⟩
  · have hrev : ¬IsSymbol pad := by decide
    obtain ⟨hll, hlb⟩ := (hdata pad hmem).resolve_left hrev
    exact hpad.elim hll fun h => h hlb.symm

/-- Settles O14: a chunk that completes hands its end state to the next, and a fault ends both runs. -/
theorem chunkingIsTransparent : Obligations.ChunkingIsTransparent := by
  intro chunks s
  induction chunks generalizing s with
  | nil => rfl
  | cons ws chunks ih =>
    rw [issueChunks, List.flatten_cons, issue_append]
    cases issue ws s with
    | next t => exact ih t
    | fault r => rfl
    | refused r => rfl

/-- Settles O26: both commands check FLUSHED before they read anything else. -/
theorem useAfterFlushOnlyRecordsItsError : Obligations.UseAfterFlushOnlyRecordsItsError := by
  rintro s b i hf (rfl | rfl)
  · simp [exec, execEncByte, encByteWith, hf, raiseUsageError_eq, stickyError, errorCode, failRecord]
  · simp [exec, execEncFlush, encFlushWith, hf, raiseUsageError_eq, stickyError, errorCode, failRecord]

/-- Settles O31: with fewer than two bytes pending, ENC.BYTE pushes its byte. -/
theorem encByteBuffersUntilTheThird : Obligations.EncByteBuffersUntilTheThird := by
  intro s b hf
  refine ⟨fun hp => ?_, fun hp => ?_⟩
  · rw [exec_encByte b hf (by simp [hp]), byteUnit_push lbChar b (by simp [hp]), push, if_pos hp]
    rfl
  · rw [exec_encByte b hf (by simp [hp]), byteUnit_push lbChar b (by simp [hp]), push, if_neg (by simp [hp])]
    rfl

end Sys2Proof.Machine

/-! ## The decoder streams (41_decoder.md)

Absent code units drop out of a text at once: what the decoder does with a text is `symbolsUnit` of its present symbols
(`charsUnit_eq_symbolsUnit`). The round trip is then a fact about the symbols of a flushed stream, group by group
(`symbolsUnit_streamSymbols`), since padding and line breaks are absent (`presentSymbols_stream`). -/

namespace Sys2Proof.Machine

/-! ### A text is its present symbols (41_decoder.md R151, R158) -/

/-- A list of symbols fed to the accumulator. -/
def symbolsUnit : List SymbolIndex → DecoderUnit → DecoderUnit × List Octet
  | [], d => (d, [])
  | v :: vs, d =>
      ((symbolsUnit vs (accumulate v d).1).1, (accumulate v d).2 ++ (symbolsUnit vs (accumulate v d).1).2)

@[simp] theorem symbolsUnit_nil (d : DecoderUnit) : symbolsUnit [] d = (d, []) := rfl

theorem symbolsUnit_cons (v : SymbolIndex) (vs : List SymbolIndex) (d : DecoderUnit) :
    symbolsUnit (v :: vs) d =
      ((symbolsUnit vs (accumulate v d).1).1, (accumulate v d).2 ++ (symbolsUnit vs (accumulate v d).1).2) := rfl

/-- The accumulator takes a list of symbols in two parts as in one. -/
theorem symbolsUnit_append (vs ws : List SymbolIndex) (d : DecoderUnit) :
    symbolsUnit (vs ++ ws) d =
      ((symbolsUnit ws (symbolsUnit vs d).1).1, (symbolsUnit vs d).2 ++ (symbolsUnit ws (symbolsUnit vs d).1).2) := by
  induction vs generalizing d with
  | nil => rfl
  | cons v vs ih => simp [symbolsUnit_cons, ih]

section
variable {c : CodeUnit} (d : DecoderUnit)

theorem charUnit_of_absent (h : rev c = none) : charUnit c d = (d, []) := by
  rw [charUnit, h]

theorem charUnit_of_present {v : SymbolIndex} (h : rev c = some v) : charUnit c d = accumulate v d := by
  rw [charUnit, h]

end

/-- What the decoder does with a text is what the accumulator does with its present symbols. -/
theorem charsUnit_eq_symbolsUnit (cs : List CodeUnit) (d : DecoderUnit) :
    charsUnit cs d = symbolsUnit (cs.filterMap rev) d := by
  induction cs generalizing d with
  | nil => rfl
  | cons c cs ih =>
    cases h : rev c with
    | none => simp [charsUnit, charUnit_of_absent d h, ih, h]
    | some v => simp [charsUnit, charUnit_of_present d h, ih, h, symbolsUnit_cons]

/-- The symbols of a text are those of its present code units. -/
theorem filterMap_rev_filter_present (cs : List CodeUnit) :
    (cs.filter fun c => (rev c).isSome).filterMap rev = cs.filterMap rev := by
  rw [List.filterMap_filter]
  refine List.filterMap_congr fun c _ => ?_
  cases rev c <;> rfl

/-- Texts with the same present code units do the same to the decoder (41_decoder.md R158). -/
theorem charsUnit_congr_present {cs cs' : List CodeUnit}
    (h : (cs.filter fun c => (rev c).isSome) = cs'.filter fun c => (rev c).isSome) (d : DecoderUnit) :
    charsUnit cs d = charsUnit cs' d := by
  rw [charsUnit_eq_symbolsUnit, charsUnit_eq_symbolsUnit, ← filterMap_rev_filter_present cs, h, filterMap_rev_filter_present]

/-! ### The octets of a decoder stream by its symbols (41_decoder.md R159) -/

theorem length_flatMap_bitString {w : Nat} (vs : List (BitVec w)) : (vs.flatMap bitString).length = vs.length * w := by
  simp [List.length_flatMap]

/-- Each symbol brings 6 bits and each octet takes 8, and fewer than 8 are held. -/
theorem length_charsUnit_out (cs : List CodeUnit) :
    (charsUnit cs DecoderUnit.reset).2.length = 3 * (cs.filterMap rev).length / 4 := by
  have hbits := congrArg List.length (charsUnit_bits cs DecoderUnit.reset)
  have hnone : heldBits DecoderUnit.reset = [] := rfl
  have hheld := length_heldBits_le (charsUnit cs DecoderUnit.reset).1
  rw [List.length_append, List.length_append, length_flatMap_bitString, length_flatMap_bitString, hnone, List.length_nil] at hbits
  omega

/-! ### The accumulator on the symbols of a group (40_encoder.md R100, 41_decoder.md R161)

The symbol that completes an octet also carries the first bits `x` of the next one, and `REM` then holds just these. -/

/-- The decoder of a stream in phase `p` with `x` in `REM`. -/
def heldDecoder (p : BitVec 2) (x : SymbolIndex) : DecoderUnit := { DecoderUnit.reset with phase := p, rem := x }

theorem append_and_0xF (a : BitVec 2) (x : BitVec 4) : (a ++ x) &&& 0xF#6 = 0#2 ++ x :=
  (BitVec.and_append (x₂ := 0#2) (y₂ := BitVec.allOnes 4)).trans (by rw [BitVec.and_zero, BitVec.and_allOnes])

theorem append_and_0x3 (a : BitVec 4) (x : BitVec 2) : (a ++ x) &&& 0x3#6 = 0#4 ++ x :=
  (BitVec.and_append (x₂ := 0#4) (y₂ := BitVec.allOnes 2)).trans (by rw [BitVec.and_zero, BitVec.and_allOnes])

/-- A value is its high bits followed by its low bits. -/
theorem append_extractLsb'_self {m n : Nat} (x : BitVec (m + n)) : x.extractLsb' n m ++ x.extractLsb' 0 n = x :=
  (BitVec.extractLsb'_append_extractLsb'_eq_extractLsb' (Nat.zero_add n).symm).trans BitVec.extractLsb'_eq_self

/-- The two symbols of the first octet of a group give it back. -/
theorem symbolsUnit_firstOctet (v : Octet) (x : BitVec 4) :
    symbolsUnit [v.extractLsb' 2 6, v.extractLsb' 0 2 ++ x] DecoderUnit.reset = (heldDecoder 2#2 (0#2 ++ x), [v]) := by
  have hfirst : accumulate (v.extractLsb' 2 6) DecoderUnit.reset = (heldDecoder 1#2 (v.extractLsb' 2 6), []) := rfl
  have hhigh : (v.extractLsb' 0 2 ++ x).extractLsb' 4 2 = v.extractLsb' 0 2 := BitVec.extractLsb'_append_eq_left
  have hoctet : v.extractLsb' 2 6 ++ v.extractLsb' 0 2 = v := append_extractLsb'_self (m := 6) (n := 2) v
  have hsecond : accumulate (v.extractLsb' 0 2 ++ x) (heldDecoder 1#2 (v.extractLsb' 2 6)) = (heldDecoder 2#2 (0#2 ++ x), [v]) := by
    rw [accumulate_phase1 _ rfl, append_and_0xF, heldDecoder, hhigh, hoctet]
    rfl
  rw [symbolsUnit_cons, hfirst, symbolsUnit_cons, hsecond]
  rfl

/-- The third symbol completes the second octet. -/
theorem accumulate_secondOctet (v : Octet) (x : BitVec 2) :
    accumulate (v.extractLsb' 0 4 ++ x) (heldDecoder 2#2 (0#2 ++ v.extractLsb' 4 4)) = (heldDecoder 3#2 (0#4 ++ x), [v]) := by
  have hheld : (0#2 ++ v.extractLsb' 4 4).extractLsb' 0 4 = v.extractLsb' 4 4 := BitVec.extractLsb'_append_eq_right
  have hhigh : (v.extractLsb' 0 4 ++ x).extractLsb' 2 4 = v.extractLsb' 0 4 := BitVec.extractLsb'_append_eq_left
  have hoctet : v.extractLsb' 4 4 ++ v.extractLsb' 0 4 = v := append_extractLsb'_self (m := 4) (n := 4) v
  rw [accumulate_phase2 _ rfl, append_and_0x3, heldDecoder, hheld, hhigh, hoctet]
  rfl

/-- The fourth symbol completes the third octet, and nothing is held. -/
theorem accumulate_thirdOctet (v : Octet) :
    accumulate (v.extractLsb' 0 6) (heldDecoder 3#2 (0#4 ++ v.extractLsb' 6 2)) = (DecoderUnit.reset, [v]) := by
  have hheld : (0#4 ++ v.extractLsb' 6 2).extractLsb' 0 2 = v.extractLsb' 6 2 := BitVec.extractLsb'_append_eq_right
  have hoctet : v.extractLsb' 6 2 ++ v.extractLsb' 0 6 = v := append_extractLsb'_self (m := 2) (n := 6) v
  rw [accumulate_phase3 _ rfl, heldDecoder, hheld, hoctet]
  rfl

/-! ### The symbols of a flushed stream (40_encoder.md R102, R103) -/

/-- The symbols of the octets that are in the alphabet. -/
def presentSymbols (os : List Octet) : List SymbolIndex := os.filterMap fun o => rev (o.setWidth 16)

/-- The symbols of octets fed to the decoder. -/
theorem filterMap_rev_map_setWidth (os : List Octet) : (os.map fun o => o.setWidth 16).filterMap rev = presentSymbols os :=
  List.filterMap_map

theorem presentSymbols_append (os os' : List Octet) : presentSymbols (os ++ os') = presentSymbols os ++ presentSymbols os' :=
  List.filterMap_append

@[simp] theorem presentSymbols_map_alpha (vs : List SymbolIndex) : presentSymbols (vs.map alpha) = vs := by
  induction vs with
  | nil => rfl
  | cons v vs ih =>
    simp only [presentSymbols] at ih
    simp [presentSymbols, rev_alpha, ih]

theorem presentSymbols_replicate {o : Octet} (h : rev (o.setWidth 16) = none) (n : Nat) :
    presentSymbols (List.replicate n o) = [] := by
  simp [presentSymbols, h]

/-- The first `k` symbols of a group, by the bit fields of its octets (40_encoder.md R100). -/
theorem presentSymbols_mapper_take (v1 v2 v3 : Octet) (k : Nat) :
    presentSymbols ((mapper v1 v2 v3).take k) =
      [v1.extractLsb' 2 6, v1.extractLsb' 0 2 ++ v2.extractLsb' 4 4, v2.extractLsb' 0 4 ++ v3.extractLsb' 6 2,
        v3.extractLsb' 0 6].take k := by
  rw [mapper_bitFields, ← presentSymbols_map_alpha (List.take k _), List.map_take]
  rfl

/-- Line breaks are absent. -/
theorem presentSymbols_wrapGroups (gs : List (List Octet)) (e : EncoderUnit) :
    presentSymbols (wrapGroups lbChar gs e) = presentSymbols gs.flatten := by
  have hbreak (b : Bool) : presentSymbols (if b = true then [lbChar] else []) = [] := by
    cases b with
    | false => rfl
    | true => exact presentSymbols_replicate rev_lbChar 1
  induction gs generalizing e with
  | nil => rfl
  | cons g gs ih =>
    rw [wrapGroups_cons, presentSymbols_append, presentSymbols_append, hbreak, ih, List.nil_append, List.flatten_cons,
      presentSymbols_append]

/-- Padding is absent: a stream's symbols are those of its groups before they are padded. -/
theorem presentSymbols_stream (bs : List Octet) (e : EncoderUnit) :
    presentSymbols (wrapGroups lbChar (streamGroups bs) e) = presentSymbols (streamSymbols bs).flatten := by
  have hpad : rev (pad.setWidth 16) = none := by decide
  rw [wrapGroups_streamGroups, presentSymbols_append, presentSymbols_replicate hpad, List.append_nil, presentSymbols_wrapGroups]

/-! ### The round trip (41_decoder.md R161) -/

/-- The decoder after a flushed stream of `n` bytes. -/
def afterStream (n : Nat) : DecoderUnit := heldDecoder (if n % 3 = 0 then 0#2 else if n % 3 = 1 then 2#2 else 3#2) 0#6

theorem afterStream_add_three (n : Nat) : afterStream (n + 3) = afterStream n := by
  rw [afterStream, Nat.add_mod_right, afterStream]

/-- The symbols of a flushed stream give its bytes back, group by group. -/
theorem symbolsUnit_streamSymbols (bs : List Octet) :
    symbolsUnit (presentSymbols (streamSymbols bs).flatten) DecoderUnit.reset = (afterStream bs.length, bs) := by
  induction bs using streamSymbols.induct with
  | case1 v1 v2 v3 rest ih =>
    have hgroup : symbolsUnit (presentSymbols ((mapper v1 v2 v3).take 4)) DecoderUnit.reset
        = (DecoderUnit.reset, [v1, v2, v3]) := by
      rw [presentSymbols_mapper_take]
      refine (symbolsUnit_append [_, _] [_, _] _).trans ?_
      rw [symbolsUnit_firstOctet, symbolsUnit_cons, accumulate_secondOctet, symbolsUnit_cons, accumulate_thirdOctet]
      rfl
    rw [streamSymbols, List.flatten_cons, presentSymbols_append, symbolsUnit_append, hgroup, ih]
    exact congrArg (·, _) (afterStream_add_three rest.length).symm
  | case2 v1 v2 =>
    have hzero : (0x00#8).extractLsb' 6 2 = 0#2 := rfl
    rw [streamSymbols, List.flatten_singleton, presentSymbols_mapper_take, hzero]
    refine (symbolsUnit_append [_, _] [_] _).trans ?_
    rw [symbolsUnit_firstOctet, symbolsUnit_cons, accumulate_secondOctet]
    rfl
  | case3 v1 =>
    have hzero : (0x00#8).extractLsb' 4 4 = 0#4 := rfl
    rw [streamSymbols, List.flatten_singleton, presentSymbols_mapper_take, hzero]
    exact symbolsUnit_firstOctet v1 0#4
  | case4 => rfl

/-- The decoder, fed the whole output of a flushed stream, returns its bytes. -/
theorem charsUnit_wrapGroups (bs : List Octet) (e : EncoderUnit) :
    charsUnit ((wrapGroups lbChar (streamGroups bs) e).map fun o => o.setWidth 16) DecoderUnit.reset
      = (afterStream bs.length, bs) := by
  rw [charsUnit_eq_symbolsUnit, filterMap_rev_map_setWidth, presentSymbols_stream, symbolsUnit_streamSymbols]

/-! ### What the other unit returned (10_state.md R40) -/

/-- A unit's output is read off from its own records. -/
theorem unitOutput_unitResponses (u : CodecUnit) (ps : List Response) : unitOutput u (unitResponses u ps) = unitOutput u ps := by
  induction ps with
  | nil => rfl
  | cons p ps ih =>
    simp only [unitOutput, unitResponses] at *
    by_cases h : p.unit = u <;> simp [h, ih]

/-- A unit that has returned the same records has the same output. -/
theorem SameUnit.output {u : CodecUnit} {s t : State} (h : SameUnit u s t) :
    unitOutput u s.responses = unitOutput u t.responses := by
  rw [← unitOutput_unitResponses, h.2, unitOutput_unitResponses]

/-- Commands of the other unit alone leave a unit and its records as they are. -/
theorem issue_otherUnit {u : CodecUnit} {ws : List Word} (hws : ∀ w ∈ ws, unitOf w ≠ u) {s t : State}
    (h : issue ws s = .next t) : SameUnit u t s := by
  induction ws generalizing s with
  | nil =>
    cases h
    exact .refl u s
  | cons w ws ih =>
    obtain ⟨hw, hws⟩ := List.forall_mem_cons.1 hws
    rw [issue_cons] at h
    cases hfirst : performWord w s with
    | next v =>
      rw [hfirst, andThen_next] at h
      exact (ih hws h).trans (performWord_otherUnit hw hfirst)
    | fault r => cases hfirst ▸ h
    | refused r => cases hfirst ▸ h

theorem unitOf_of_mem_encStreamWords {ll : BitVec 16} {bs : List Octet} {w : Word} (h : w ∈ encStreamWords ll bs) :
    unitOf w = .encoder := by
  simp only [encStreamWords, encEncodeWords, encWriteWords, List.mem_cons, List.mem_append, List.mem_map, List.not_mem_nil,
    or_false] at h
  rcases h with rfl | ⟨b, -, rfl⟩ | rfl
  · exact (encode_matchesRow (.encInit ll)).2
  · exact (encode_matchesRow (.encByte b)).2
  · exact (encode_matchesRow .encFlush).2

/-! ### One code unit and its record (41_decoder.md R151, R163) -/

theorem exec_decChar (c : CodeUnit) (s : State) :
    exec (.decChar c) s = .next (respond .decoder (successRecord (charUnit c s.dec).2 0#32) (withDec (charUnit c s.dec).1 s)) :=
  execDecChar_eq c s

/-- The record of one octet. -/
theorem successRecord_singleton (o : Octet) : successRecord [o] 0#32 = outputRecord 1#3 (0#32 ++ o) := by
  have hpack : packOctets [o] = 0#32 ++ o := by
    have hwide : 0#32 ++ o = o.setWidth 40 := (BitVec.setWidth_eq_append (by decide)).symm
    simp [packOctets, hwide]
  rw [successRecord, hpack]
  rfl

theorem exec_decChar_absent {c : CodeUnit} (s : State) (h : rev c = none) :
    exec (.decChar c) s = .next (s.answered .decoder (silentRecord 0#32)) := by
  rw [exec_decChar, charUnit_of_absent _ h]
  rfl

/-- The accumulator emits nothing exactly in phase 0, and one octet otherwise. -/
theorem accumulate_out_cases (v : SymbolIndex) (d : DecoderUnit) :
    (d.phase = 0#2 ∧ (accumulate v d).2 = []) ∨ (d.phase ≠ 0#2 ∧ ∃ o, (accumulate v d).2 = [o]) := by
  rcases phase_cases d.phase with h | h | h | h
  · exact .inl ⟨h, by rw [accumulate_phase0 v h]⟩
  · exact .inr ⟨by simp [h], _, by rw [accumulate_phase1 v h]⟩
  · exact .inr ⟨by simp [h], _, by rw [accumulate_phase2 v h]⟩
  · exact .inr ⟨by simp [h], _, by rw [accumulate_phase3 v h]⟩

/-! ### The obligations -/

/-- Settles O47: each symbol brings 6 bits, and every 8 bits are a byte. -/
theorem decoderEmitsThreeBytesPerFourSymbols : Obligations.DecoderEmitsThreeBytesPerFourSymbols := by
  intro s cs
  obtain ⟨t, ht, -, -, hout⟩ := issue_decStreamWords cs s
  exact ⟨t, _, ht, hout, length_charsUnit_out cs⟩

/-- Settles O48: a text is decoded by its present code units alone, and `=` is absent. -/
theorem absentUnitsCanBeInsertedAnywhere : Obligations.AbsentUnitsCanBeInsertedAnywhere := by
  refine ⟨fun s cs cs' h => ?_, ?_⟩
  · obtain ⟨t, ht, hdec, -, hout⟩ := issue_decWriteWords cs s
    obtain ⟨t', ht', hdec', -, hout'⟩ := issue_decWriteWords cs' s
    have hsame := charsUnit_congr_present h s.dec
    exact ⟨t, t', ht, ht', by rw [hdec, hdec', hsame], by rw [hout, hout', hsame]⟩
  · obtain ⟨t, ht, -, -, hout⟩ := issue_decStreamWords
      [0x61#16, 0x47#16, 0x6B#16, 0x3D#16, 0x61#16, 0x47#16, 0x6B#16, 0x3D#16] State.reset
    exact ⟨t, ht, hout.trans (by decide)⟩

/-- Settles O49: the decoder skips the padding and the line breaks, and each group's symbols give its bytes back. -/
theorem roundTripGivesTheBytesBack : Obligations.RoundTripGivesTheBytesBack := by
  intro s ll bs
  obtain ⟨t, ht, hout⟩ := issue_encStreamWords ll bs s
  have hdecoder : SameUnit .decoder t s := issue_otherUnit (fun w hw => by simp [unitOf_of_mem_encStreamWords hw]) ht
  obtain ⟨t', ht', hdec', -, hout'⟩ :=
    issue_decStreamWords ((wrapGroups lbChar (streamGroups bs) (streamStart ll)).map fun o => o.setWidth 16) t
  rw [charsUnit_wrapGroups] at hdec' hout'
  exact ⟨t, _, t', ht, hout, ht', by rw [hout', hdecoder.output], by rw [hdec']; rfl, by rw [hdec']; rfl⟩

/-- Settles O38: an absent code unit is skipped, and the accumulator's step is written out phase by phase. -/
theorem decCharStepsThePhaseMachine : Obligations.DecCharStepsThePhaseMachine := by
  refine fun s c => ⟨exec_decChar_absent s, fun v hv => ⟨fun h => ?_, fun h => ?_, fun h => ?_, fun h => ?_⟩⟩ <;>
    rw [exec_decChar, charUnit_of_present _ hv]
  · rw [accumulate_phase0 v h]
    rfl
  · rw [accumulate_phase1 v h, successRecord_singleton, BitVec.extractLsb'_eq_self]
    rfl
  · rw [accumulate_phase2 v h, successRecord_singleton]
    rfl
  · rw [accumulate_phase3 v h, successRecord_singleton, BitVec.extractLsb'_eq_self]
    rfl

/-- Settles O39: an absent code unit and a symbol in phase 0 output nothing, and every other symbol one octet. -/
theorem decCharNeverFails : Obligations.DecCharNeverFails := by
  intro s c
  cases hv : rev c with
  | none => exact ⟨s.dec, 0#3, 0#8, exec_decChar_absent s hv, rfl, by decide, by simp⟩
  | some v =>
    have hexec := exec_decChar c s
    rw [charUnit_of_present _ hv] at hexec
    rcases accumulate_out_cases v s.dec with ⟨hphase, hout⟩ | ⟨hphase, o, hout⟩
    · rw [hout] at hexec
      exact ⟨_, 0#3, 0#8, hexec, accumulate_derr v s.dec, by decide, by simp [hphase]⟩
    · rw [hout, successRecord_singleton] at hexec
      exact ⟨_, 1#3, o, hexec, accumulate_derr v s.dec, by decide, by simp [hphase]⟩

end Sys2Proof.Machine

/-! ## Usage errors (60_exceptions.md)

What becomes of an ERR field is read off from the moves of its unit (`Moves.eerr_kept`, `Moves.derr_kept`). That nothing reads the field
but its status readback and the sticky rule is `exec_withErrors`: other ERR values before an instruction give other ERR values after it,
and the same state otherwise. -/

namespace Sys2Proof.Machine

/-! ### Every input completes (60_exceptions.md R170) -/

/-- A command word, legal or not, completes where the pending count has a meaning. -/
theorem performWord_completes (w : Word) {s : State} (hs : CountOk s.enc) : ∃ t, performWord w s = .next t := by
  obtain ⟨t, -, ht, -⟩ := performWord_sameUnit (w := w) hs (.refl _ s)
  exact ⟨t, ht⟩

/-! ### The sticky rule (60_exceptions.md R173, R179) -/

@[simp] theorem stickyError_zero (x : UsageError) : stickyError 0#3 x = errorCode x := rfl

/-- A field that holds an error keeps it. -/
theorem stickyError_of_ne_zero {old : BitVec 3} (h : old ≠ 0#3) (x : UsageError) : stickyError old x = old :=
  if_neg h

/-- Only ENC.INIT changes an EERR that holds an error. -/
theorem EncoderMove.eerr_kept {e e' : EncoderUnit} {x : Decoded} {r : Record} (h : EncoderMove e x e' r)
    (he : e.eerr ≠ 0#3) (hx : ∀ ll, x ≠ .instr (.encInit ll)) : e'.eerr = e.eerr := by
  cases h with
  | init ll => exact absurd rfl (hx ll)
  | byte b => exact (byteUnit_frame lbChar b e).2.2
  | flush => exact (flushGroup_frame lbChar e).2
  | byteAfterFlush | flushAfterFlush | illegalWord => exact stickyError_of_ne_zero he _
  | rdstat | rdcfg | rdpend => rfl

/-- Only DEC.INIT changes a DERR that holds an error. -/
theorem DecoderMove.derr_kept {d d' : DecoderUnit} {x : Decoded} {r : Record} (h : DecoderMove d x d' r)
    (hd : d.derr ≠ 0#3) (hx : x ≠ .instr .decInit) : d'.derr = d.derr := by
  cases h with
  | init => exact absurd rfl hx
  | char c => exact charUnit_derr c d
  | rdstat => rfl
  | illegalWord => exact stickyError_of_ne_zero hd _

section
variable {s t : State} {x : Decoded}

theorem Moves.eerr_kept (h : Moves s x t) (hs : s.enc.eerr ≠ 0#3) (hx : ∀ ll, x ≠ .instr (.encInit ll)) :
    t.enc.eerr = s.enc.eerr := by
  cases h with
  | encoder hm => exact hm.eerr_kept hs hx
  | decoder => rfl

theorem Moves.derr_kept (h : Moves s x t) (hs : s.dec.derr ≠ 0#3) (hx : x ≠ .instr .decInit) :
    t.dec.derr = s.dec.derr := by
  cases h with
  | encoder => rfl
  | decoder hm => exact hm.derr_kept hs hx

theorem Moves.eerr_of_encInit {ll : BitVec 16} (h : Moves s (.instr (.encInit ll)) t) : t.enc.eerr = 0#3 := by
  cases h with
  | encoder hm => cases hm; rfl
  | decoder hm => cases hm

theorem Moves.derr_of_decInit (h : Moves s (.instr .decInit) t) : t.dec.derr = 0#3 := by
  cases h with
  | encoder hm => cases hm
  | decoder hm => cases hm; rfl

/-- An illegal word leaves its code in an EERR that holds no error. -/
theorem Moves.eerr_of_usageError {u : UsageError} (h : Moves s (.usageError .encoder u) t) (hs : s.enc.eerr = 0#3) :
    t.enc.eerr = errorCode u := by
  cases h with
  | encoder hm => cases hm; simp [hs]
  | decoder hm => cases hm

end

/-! ### The words of ENC.BYTE and ENC.FLUSH (30_encoding.md R74, R75) -/

/-- The top four bits of a word are `U` and `OP`, as a unit and an opcode. -/
theorem opcode_eq_iff (w : Word) (u : CodecUnit) (op : BitVec 3) :
    w.extractLsb' 28 4 = unitBit u ++ op ↔ unitOf w = u ∧ fieldOp w = op := by
  rw [opcode_eq, unitOf_eq_iff]
  generalize fieldU w = b, fieldOp w = p
  cases u <;> revert b p op <;> decide

/-- The low half of the operand field, as bits of the word. -/
theorem operandB_fieldOpnd (w : Word) : operandB (fieldOpnd w) = w.extractLsb' 0 8 :=
  BitVec.extractLsb'_extractLsb'_of_le (by decide)

/-- With the high half of the operand field 0, the field is its low half. -/
theorem fieldOpnd_eq_setWidth {w : Word} (hhigh : w.extractLsb' 8 8 = 0#8) : fieldOpnd w = (w.extractLsb' 0 8).setWidth 16 := by
  rw [← operandB_fieldOpnd, setWidth_operandB ((extractLsb'_fieldOpnd w).trans hhigh)]

/-- An ENC.BYTE or ENC.FLUSH word with a must-be-0 bit set. -/
theorem decode_rsvdField_of_bit_set {w : Word} (hop : w.extractLsb' 28 4 ∈ [1#4, 2#4])
    (hbits : w.extractLsb' 16 12 ≠ 0#12 ∨ w.extractLsb' 8 8 ≠ 0#8 ∨ (w.extractLsb' 28 4 = 2#4 ∧ w.extractLsb' 0 8 ≠ 0#8)) :
    decode w = .usageError .encoder .rsvdField := by
  have hzero : fieldOpnd w = 0#16 → w.extractLsb' 8 8 = 0#8 ∧ w.extractLsb' 0 8 = 0#8 := fun h => by
    rw [← extractLsb'_fieldOpnd, ← operandB_fieldOpnd, h]
    decide
  refine (mustBeZeroBitsRaiseRsvdField w).1.2 ?_
  simp only [List.mem_cons, List.not_mem_nil, or_false] at hop
  rcases hop with hop | hop
  · simpa [hop] using hbits
  · simp only [hop, true_and] at hbits
    refine ⟨by simp [hop], hbits.imp_right fun h => .inr ⟨by simp [hop], fun h0 => ?_⟩⟩
    obtain ⟨hhigh, hlow⟩ := hzero h0
    exact h.elim (· hhigh) (· hlow)

/-- An ENC.BYTE or ENC.FLUSH word with every must-be-0 bit 0. -/
theorem decode_of_bits_zero {w : Word} (hop : w.extractLsb' 28 4 ∈ [1#4, 2#4]) (hrsv : w.extractLsb' 16 12 = 0#12)
    (hhigh : w.extractLsb' 8 8 = 0#8) (hlow : w.extractLsb' 28 4 = 2#4 → w.extractLsb' 0 8 = 0#8) :
    ∃ i, decode w = .instr i ∧ (i = .encByte (w.extractLsb' 0 8) ∨ i = .encFlush) := by
  simp only [List.mem_cons, List.not_mem_nil, or_false] at hop
  rcases hop with hop | hop
  · obtain ⟨hu, hrow⟩ := (opcode_eq_iff w .encoder 1#3).1 hop
    exact ⟨_, (decode_eq_instr_iff w (.encByte _)).2 ⟨hu, hrow, hrsv, fieldOpnd_eq_setWidth hhigh⟩, .inl rfl⟩
  · obtain ⟨hu, hrow⟩ := (opcode_eq_iff w .encoder 2#3).1 hop
    have hopnd : fieldOpnd w = 0#16 := by rw [fieldOpnd_eq_setWidth hhigh, hlow hop]; rfl
    exact ⟨_, (decode_eq_instr_iff w .encFlush).2 ⟨hu, hrow, hrsv, hopnd⟩, .inr rfl⟩

/-! ### Other ERR values (60_exceptions.md R176) -/

/-- `s` with these values in EERR and DERR. -/
def State.withErrors (x y : BitVec 3) (s : State) : State :=
  { s with enc := { s.enc with eerr := x }, dec := { s.dec with derr := y } }

section
variable (lb : Octet) (e : EncoderUnit) (x : BitVec 3)

theorem group_withEerr (v1 v2 v3 : Octet) (k : Nat) :
    group lb v1 v2 v3 k { e with eerr := x } = ({ (group lb v1 v2 v3 k e).1 with eerr := x }, (group lb v1 v2 v3 k e).2) := by
  refine Prod.ext ?_ ?_
  · rw [group_unit, group_unit]; rfl
  · rw [group_out, group_out]; rfl

/-- ENC.BYTE that is not refused does not read EERR. -/
theorem byteUnit_withEerr (b : Octet) :
    byteUnit lb b { e with eerr := x } = ({ (byteUnit lb b e).1 with eerr := x }, (byteUnit lb b e).2) := by
  unfold byteUnit push
  rw [group_withEerr]
  split_ifs <;> rfl

/-- What ENC.FLUSH emits does not depend on EERR. -/
theorem flushGroup_withEerr :
    flushGroup lb { e with eerr := x } = ({ (flushGroup lb e).1 with eerr := x }, (flushGroup lb e).2) := by
  unfold flushGroup
  simp only [group_withEerr]
  split_ifs <;> rfl

/-- DEC.CHAR does not read DERR. -/
theorem charUnit_withDerr (c : CodeUnit) (d : DecoderUnit) :
    charUnit c { d with derr := x } = ({ (charUnit c d).1 with derr := x }, (charUnit c d).2) := by
  unfold charUnit accumulate
  split
  · rfl
  · split_ifs <;> rfl

end

section
variable {s t : State}

theorem countOk_of_exec_encByte {b : Octet} (hf : s.enc.flushed = false) (h : exec (.encByte b) s = .next t) : CountOk s.enc := by
  intro hp
  simp [exec, execEncByte, encByteWith, hf, hp] at h

theorem countOk_of_exec_encFlush (hf : s.enc.flushed = false) (h : exec .encFlush s = .next t) : CountOk s.enc := by
  intro hp
  simp [exec, execEncFlush, encFlushWith, hf, hp] at h

theorem exec_encRdstat_eq_next_iff :
    exec .encRdstat s = .next t ↔ CountOk s.enc ∧ respond .encoder (successRecord [] (encStatusWord s.enc)) s = t := by
  rw [exec, execEncRdstat]
  split <;> simp [*]

theorem exec_encRdpend_eq_next_iff :
    exec .encRdpend s = .next t ↔ CountOk s.enc ∧ respond .encoder (successRecord [] (encPendingWord s.enc)) s = t := by
  rw [exec, execEncRdpend]
  split <;> simp [*]

/-- Use after a flush fails whatever the ERR fields hold. -/
theorem exec_withErrors_afterFlush {i : Instr} {b : Octet} (hf : s.enc.flushed = true) (hi : i = .encByte b ∨ i = .encFlush)
    (h : exec i s = .next t) (x y : BitVec 3) : ∃ x', exec i (s.withErrors x y) = .next (t.withErrors x' y) := by
  cases (useAfterFlushOnlyRecordsItsError s b i hf hi).symm.trans h
  exact ⟨_, useAfterFlushOnlyRecordsItsError (s.withErrors x y) b i hf hi⟩

/-- From other ERR values an instruction that completes gives the same next state with other ERR values, and the same records unless it
is a status readback. -/
theorem exec_withErrors {i : Instr} (h : exec i s = .next t) (x y : BitVec 3) :
    ∃ x' y' rs, exec i (s.withErrors x y) = .next { t.withErrors x' y' with responses := rs }
      ∧ (i ≠ .encRdstat → i ≠ .decRdstat → rs = t.responses) := by
  cases i with
  | encInit ll => cases h; exact ⟨0#3, y, _, rfl, fun _ _ => rfl⟩
  | encByte b =>
    cases hf : s.enc.flushed with
    | true =>
      obtain ⟨x', h'⟩ := exec_withErrors_afterFlush (b := b) hf (.inl rfl) h x y
      exact ⟨x', y, _, h', fun _ _ => rfl⟩
    | false =>
      have hp := countOk_of_exec_encByte hf h
      cases (exec_encByte b hf hp).symm.trans h
      refine ⟨x, y, _, (exec_encByte (s := s.withErrors x y) b hf hp).trans ?_, fun _ _ => rfl⟩
      simp only [State.withErrors, byteUnit_withEerr]
      rfl
  | encFlush =>
    cases hf : s.enc.flushed with
    | true =>
      obtain ⟨x', h'⟩ := exec_withErrors_afterFlush (b := 0#8) hf (.inr rfl) h x y
      exact ⟨x', y, _, h', fun _ _ => rfl⟩
    | false =>
      have hp := countOk_of_exec_encFlush hf h
      cases (exec_encFlush hf hp).symm.trans h
      refine ⟨x, y, _, (exec_encFlush (s := s.withErrors x y) hf hp).trans ?_, fun _ _ => rfl⟩
      simp only [State.withErrors, flushGroup_withEerr]
      rfl
  | encRdstat =>
    obtain ⟨hp, rfl⟩ := exec_encRdstat_eq_next_iff.1 h
    exact ⟨x, y, _, exec_encRdstat_eq_next_iff.2 ⟨hp, rfl⟩, fun hne => absurd rfl hne⟩
  | encRdcfg => cases h; exact ⟨x, y, _, rfl, fun _ _ => rfl⟩
  | encRdpend =>
    obtain ⟨hp, rfl⟩ := exec_encRdpend_eq_next_iff.1 h
    exact ⟨x, y, _, exec_encRdpend_eq_next_iff.2 ⟨hp, rfl⟩, fun _ _ => rfl⟩
  | decInit => cases h; exact ⟨x, 0#3, _, rfl, fun _ _ => rfl⟩
  | decChar c =>
    cases (execDecChar_eq c s).symm.trans h
    refine ⟨x, y, _, (execDecChar_eq c (s.withErrors x y)).trans ?_, fun _ _ => rfl⟩
    simp only [State.withErrors, charUnit_withDerr]
    rfl
  | decRdstat => cases h; exact ⟨x, y, _, rfl, fun _ hne => absurd rfl hne⟩

end

/-! ### The obligations -/

/-- Settles O21: the block answers a reset and the absence of an input in every state, and a word where the count has a meaning. -/
theorem everyStepCompletes : Obligations.EveryStepCompletes := by
  intro s hs
  cases hin : s.inputs with
  | nil => exact ⟨s, step_nil hin⟩
  | cons input rest =>
    rw [step_cons hin]
    cases input with
    | command w => exact performWord_completes w hs
    | reset => exact ⟨_, rfl⟩
    | resetDuring w => exact ⟨_, rfl⟩

/-- Settles O27: a word moves its unit, where only an INIT writes a field that holds an error; both resets clear both fields. -/
theorem firstErrorIsKeptUntilInitOrReset : Obligations.FirstErrorIsKeptUntilInitOrReset := by
  intro s t input rest hin h
  rw [step_cons hin] at h
  cases input with
  | command w =>
    have hm := performWord_moves h
    refine ⟨fun he => ⟨?_, fun hno => hm.eerr_kept he fun ll hd => hno (.inl ⟨w, ll, rfl, hd⟩)⟩,
      fun hd => ⟨?_, fun hno => hm.derr_kept hd fun hinit => hno (.inl ⟨w, rfl, hinit⟩)⟩⟩
    · rintro (⟨_, ll, ⟨⟩, hinit⟩ | ⟨⟨⟩⟩ | ⟨_, ⟨⟩⟩)
      exact Moves.eerr_of_encInit (hinit ▸ hm)
    · rintro (⟨_, ⟨⟩, hinit⟩ | ⟨⟨⟩⟩ | ⟨_, ⟨⟩⟩)
      exact Moves.derr_of_decInit (hinit ▸ hm)
  | reset | resetDuring =>
    cases h
    simp [EncoderUnit.reset, DecoderUnit.reset]

/-- Settles O28: the decode procedure checks the opcode and then the must-be-0 bits, and only an instruction checks FLUSHED. -/
theorem errorsAreReportedByPriority : Obligations.ErrorsAreReportedByPriority := by
  intro s t w rest hin h he hf
  replace h : performWord w { s with inputs := rest } = .next t := (step_cons hin).symm.trans h
  have hm := performWord_moves h
  refine ⟨fun hop => ?_, fun hop => ⟨fun hbits => ?_, fun hrsv hhigh hlow => ?_⟩⟩
  · have hd : decode w = .usageError .encoder .rsvdOp := (reservedOpcodeRaisesRsvdOp w).1.1 (by simpa using hop)
    exact (hd ▸ hm).eerr_of_usageError he
  · exact (decode_rsvdField_of_bit_set hop hbits ▸ hm).eerr_of_usageError he
  · obtain ⟨i, hd, hi⟩ := decode_of_bits_zero hop hrsv hhigh hlow
    rw [performWord_instr hd] at h
    cases (useAfterFlushOnlyRecordsItsError { s with inputs := rest } _ i hf hi).symm.trans h
    exact if_pos he

/-- Settles O29: the next states differ in the ERR fields alone, apart from the record of a status readback. -/
theorem heldErrorChangesNoLaterCommand : Obligations.HeldErrorChangesNoLaterCommand := by
  intro i s t x y h
  obtain ⟨x', y', rs, hnext, hresponses⟩ := exec_withErrors h x y
  exact ⟨_, hnext, rfl, hresponses⟩

end Sys2Proof.Machine

/-! ## Reset (70_reset_and_hazards.md)

A reset input and an INIT are next states written out whole: `step_reset` and `step_resetDuring` say what the port does with the two reset
inputs, `exec_encInit` and `exec_decInit` what the two INIT operations do. -/

namespace Sys2Proof.Machine

/-! ### Hardware reset (R190) -/

/-- Hardware reset writes the two units and nothing of the host's. -/
theorem hardwareReset_eq (s : State) : hardwareReset s = { s with enc := EncoderUnit.reset, dec := DecoderUnit.reset } := rfl

/-- A reset input between commands takes itself off the host's list and resets both units. -/
theorem step_reset {s : State} {rest : List HostInput} (h : s.inputs = .reset :: rest) :
    step s = .next { s with enc := EncoderUnit.reset, dec := DecoderUnit.reset, inputs := rest } :=
  (step_cons h).trans (congrArg _ (hardwareReset_eq _))

/-- A reset input during a command does that too, and answers the command with the free record of I11. -/
theorem step_resetDuring {s : State} {w : Word} {rest : List HostInput} (h : s.inputs = .resetDuring w :: rest) :
    step s = .next
      { s with
        enc := EncoderUnit.reset
        dec := DecoderUnit.reset
        inputs := rest
        responses := s.responses ++ [{ unit := unitOf w, record := cutRecord s.draws, completed := false }]
        draws := s.draws + 1 } :=
  (step_cons h).trans (congrArg _ (hardwareReset_eq _))

/-! ### The two INIT operations (R191): `exec_encInit` above is the encoder's -/

/-- DEC.INIT starts a stream (41_decoder.md R150). -/
theorem exec_decInit (s : State) :
    exec .decInit s = .next (respond .decoder (successRecord [] 0#32) (withDec DecoderUnit.reset s)) := rfl

/-! ### The obligations -/

/-- Settles O11: the reset values of 10_state.md R39 are all 0. -/
theorem resetInputGivesResetState : Obligations.ResetInputGivesResetState := by
  intro s rest h
  rw [step_reset h, EncoderUnit.reset, DecoderUnit.reset]

/-- Settles O12: the record that the cut command returns is the free one, `cutRecord`. -/
theorem resetDuringCommandGivesResetState : Obligations.ResetDuringCommandGivesResetState := by
  intro s w rest h
  exact ⟨cutRecord s.draws, step_resetDuring h⟩

/-- Settles O30: each INIT writes every element of its unit, ENC.INIT its operand into LL, and answers with an empty record. -/
theorem initLeavesUnitAsReset : Obligations.InitLeavesUnitAsReset := by
  intro s ll
  exact ⟨exec_encInit ll s, exec_decInit s⟩

end Sys2Proof.Machine

/-! ## Where the machine stands still, and where it stops

A step with no host input is `step_nil`. The one fault of the model is raised where `CountOk` fails (92_eei_decisions.md D29,
93_implementation_defined.md I8): one lemma per operation that reads PCNT, the companion of its equation under `CountOk`. -/

namespace Sys2Proof.Machine

/-! ### The pending count with no meaning (92_eei_decisions.md D29) -/

section
variable {s : State}

/-- ENC.BYTE looks at FLUSHED first: only a stream that is not flushed stops. -/
theorem exec_encByte_fault (b : Octet) (hf : s.enc.flushed = false) (hp : s.enc.pcnt = 3#2) :
    exec (.encByte b) s = .fault .pendingCountThree := by
  simp [exec, execEncByte, encByteWith, hf, hp]

/-- ENC.FLUSH looks at FLUSHED first too. -/
theorem exec_encFlush_fault (hf : s.enc.flushed = false) (hp : s.enc.pcnt = 3#2) :
    exec .encFlush s = .fault .pendingCountThree := by
  simp [exec, execEncFlush, encFlushWith, hf, hp]

theorem exec_encRdstat_fault (hp : s.enc.pcnt = 3#2) : exec .encRdstat s = .fault .pendingCountThree :=
  if_pos hp

theorem exec_encRdpend_fault (hp : s.enc.pcnt = 3#2) : exec .encRdpend s = .fault .pendingCountThree :=
  if_pos hp

end

/-! ### The obligations -/

/-- Settles O10: the port finds no input to take. -/
theorem stepWithoutInputChangesNothing : Obligations.StepWithoutInputChangesNothing := by
  intro s h
  exact step_nil h

/-- Settles O22: each of the four operations tests PCNT before it does anything, ENC.BYTE and ENC.FLUSH after they found FLUSHED = 0. -/
theorem pendingCountThreeFaults : Obligations.PendingCountThreeFaults := by
  intro s b hp
  refine ⟨fun hf => ⟨?encByte, ?encFlush⟩, ?encRdstat, ?encRdpend⟩
  case encByte => exact exec_encByte_fault b hf hp
  case encFlush => exact exec_encFlush_fault hf hp
  case encRdstat => exact exec_encRdstat_fault hp
  case encRdpend => exact exec_encRdpend_fault hp

end Sys2Proof.Machine
